-- ==== Sys2Proof/Word.lean ====
section
/-! DEFINITION. The word types of the CHIP-8 core: bytes, 16-bit words, 12-bit addresses and nibbles
(`00_scope.md` R8, R9). Every value of the machine is unsigned. -/

namespace Sys2Proof

/-- One byte: a general register, a timer or a memory cell (R20, R26, R33). -/
abbrev Byte := BitVec 8

/-- 16 bits: an instruction word, `pc`, `I`, a stack entry or a key mask (R22, R24, R28, R31, R90). -/
abbrev Word := BitVec 16

/-- The 12-bit address operand `NNN` (R91). -/
abbrev Addr := BitVec 12

/-- Four bits: a register index, a sprite height, or the ignored bits of a word (R91, R92). -/
abbrev Nibble := BitVec 4

end Sys2Proof
end

