-- ==== Sys2Proof/Syntax.lean ====
section
/-! DEFINITION. The 34 instructions, one constructor per row of `spec/opcode_table.json`, in the table's order
(`30_encoding.md` R92, R95). -/

namespace Sys2Proof

/-- A register index, the field `X` or `Y`: every value names one of the sixteen registers (R20, R93). -/
abbrev Reg := Nibble

/-- An instruction. The argument `ign` of four constructors is no operand: it holds the word's ignored bits (R100), so
that a decoded word can be written back exactly; no meaning reads it (log 26). -/
inductive Instr where
  /-- CLS, `0-E0` (R201). -/
  | cls (ign : Nibble)
  /-- RET, `0-EE` (R141). -/
  | ret (ign : Nibble)
  /-- JP NNN, `1NNN` (R140). -/
  | jp (nnn : Addr)
  /-- CALL NNN, `2NNN` (R142). -/
  | call (nnn : Addr)
  /-- SE Vx, NN, `3XNN` (R144). -/
  | seImm (x : Reg) (nn : Byte)
  /-- SNE Vx, NN, `4XNN` (R145). -/
  | sneImm (x : Reg) (nn : Byte)
  /-- SE Vx, Vy, `5XY-` (R146). -/
  | seReg (x y : Reg) (ign : Nibble)
  /-- LD Vx, NN, `6XNN` (R161). -/
  | ldImm (x : Reg) (nn : Byte)
  /-- ADD Vx, NN, `7XNN` (R162). -/
  | addImm (x : Reg) (nn : Byte)
  /-- LD Vx, Vy, `8XY0` (R163). -/
  | ldReg (x y : Reg)
  /-- OR Vx, Vy, `8XY1` (R164). -/
  | orReg (x y : Reg)
  /-- AND Vx, Vy, `8XY2` (R165). -/
  | andReg (x y : Reg)
  /-- XOR Vx, Vy, `8XY3` (R171). -/
  | xorReg (x y : Reg)
  /-- ADD Vx, Vy, `8XY4` (R166). -/
  | addReg (x y : Reg)
  /-- SUB Vx, Vy, `8XY5` (R167). -/
  | sub (x y : Reg)
  /-- SHR Vx, `8XY6` (R168); `Y` is an operand when `SHIFT_SOURCE = VY`. -/
  | shr (x y : Reg)
  /-- SUBN Vx, Vy, `8XY7` (R169). -/
  | subn (x y : Reg)
  /-- SHL Vx, `8XYE` (R170); `Y` is an operand when `SHIFT_SOURCE = VY`. -/
  | shl (x y : Reg)
  /-- SNE Vx, Vy, `9XY-` (R147). -/
  | sneReg (x y : Reg) (ign : Nibble)
  /-- LD I, NNN, `ANNN` (R181). -/
  | ldI (nnn : Addr)
  /-- JP V0, NNN, `BNNN` (R149). -/
  | jpV0 (nnn : Addr)
  /-- RND Vx, NN, `CXNN` (R172). -/
  | rnd (x : Reg) (nn : Byte)
  /-- DRW Vx, Vy, N, `DXYN` (R202). -/
  | drw (x y : Reg) (n : Nibble)
  /-- SKP Vx, `EX9E` (R221). -/
  | skp (x : Reg)
  /-- SKNP Vx, `EXA1` (R222). -/
  | sknp (x : Reg)
  /-- LD Vx, DT, `FX07` (R223). -/
  | ldVxDt (x : Reg)
  /-- LD Vx, K, `FX0A` (R227). -/
  | ldVxK (x : Reg)
  /-- LD DT, Vx, `FX15` (R224). -/
  | ldDtVx (x : Reg)
  /-- LD ST, Vx, `FX18` (R225). -/
  | ldStVx (x : Reg)
  /-- ADD I, Vx, `FX1E` (R182). -/
  | addI (x : Reg)
  /-- LD F, Vx, `FX29` (R183). -/
  | ldF (x : Reg)
  /-- LD B, Vx, `FX33` (R184). -/
  | ldB (x : Reg)
  /-- LD [I], Vx, `FX55` (R186). -/
  | stRegs (x : Reg)
  /-- LD Vx, [I], `FX65` (R187). -/
  | ldRegs (x : Reg)
  deriving DecidableEq, Repr

end Sys2Proof
end

