-- ==== Sys2Proof/WellFormed.lean ====
section
/-! DEFINITION. Which instruction terms an assembler writes: the canonical ones, whose ignored bits are zero
(`30_encoding.md` R100, R101). Every other field has the width of its type, so nothing else can be ill formed. -/

namespace Sys2Proof

/-- The term stands for a canonical encoding (R100): "the ignored bits of rule R100 are always assembled as zero" (R101).
The hardware runs the other words of R100 too; so does the model. -/
def Instr.wellFormed : Instr → Bool
  | .cls ign => ign == 0
  | .ret ign => ign == 0
  | .seReg _ _ ign => ign == 0
  | .sneReg _ _ ign => ign == 0
  | .jp _ | .call _ | .seImm _ _ | .sneImm _ _ | .ldImm _ _ | .addImm _ _ | .ldReg _ _ | .orReg _ _ | .andReg _ _
  | .xorReg _ _ | .addReg _ _ | .sub _ _ | .shr _ _ | .subn _ _ | .shl _ _ | .ldI _ | .jpV0 _ | .rnd _ _ | .drw _ _ _
  | .skp _ | .sknp _ | .ldVxDt _ | .ldVxK _ | .ldDtVx _ | .ldStVx _ | .addI _ | .ldF _ | .ldB _ | .stRegs _
  | .ldRegs _ => true

end Sys2Proof
end

