-- ==== Sys2Proof/Decode.lean ====
section
/-! DEFINITION. The decoder, total on every word and on every list of bytes, and the encoder; both written from
`30_encoding.md` (R91 fields, R95 opcode map, R96 decoder function, R97 invalid words). -/

namespace Sys2Proof

/-! ## Fields (R91, R10) -/

/-- `G = op[15:12]`, the primary group. -/
def fieldG (op : Word) : Nibble := op.extractLsb' 12 4
/-- `X = op[11:8]`. -/
def fieldX (op : Word) : Nibble := op.extractLsb' 8 4
/-- `Y = op[7:4]`. -/
def fieldY (op : Word) : Nibble := op.extractLsb' 4 4
/-- `N = op[3:0]`. -/
def fieldN (op : Word) : Nibble := op.extractLsb' 0 4
/-- `NN = op[7:0]`. -/
def fieldNN (op : Word) : Byte := op.extractLsb' 0 8
/-- `NNN = op[11:0]`. -/
def fieldNNN (op : Word) : Addr := op.extractLsb' 0 12

/-! ## Decoder (R96) -/

/-- Why a word is invalid: the group, and the sub-operation that the group does not have (R97). -/
inductive Invalid where
  /-- Group 0x0, `NN` neither 0xE0 nor 0xEE; the unimplemented `0NNN` is here (R99). -/
  | group0 (nn : Byte)
  /-- Group 0x8, `N` is 0x8, 0x9, 0xA, 0xB, 0xC, 0xD or 0xF. -/
  | group8 (n : Nibble)
  /-- Group 0xE, `NN` neither 0x9E nor 0xA1. -/
  | groupE (nn : Byte)
  /-- Group 0xF, `NN` none of the nine sub-operations. -/
  | groupF (nn : Byte)
  deriving DecidableEq, Repr

/-- The decoder's verdict on a word: an instruction, or `Invalid`, "its own verdict" (R96). -/
inductive Decoded where
  | instr (i : Instr)
  | invalid (why : Invalid)
  deriving DecidableEq, Repr

/-- The verdict as an option: the instruction, if the word is one. -/
def Decoded.toOption : Decoded → Option Instr
  | .instr i => some i
  | .invalid _ => none

/-- Group 0x0, selected by the low byte (R94). -/
def decodeGroup0 (op : Word) : Decoded :=
  if fieldNN op = 0xE0 then .instr (.cls (fieldX op))
  else if fieldNN op = 0xEE then .instr (.ret (fieldX op))
  else .invalid (.group0 (fieldNN op))

/-- Group 0x8, selected by the low nibble (R94). -/
def decodeGroup8 (op : Word) : Decoded :=
  match (fieldN op).toNat with
  | 0x0 => .instr (.ldReg (fieldX op) (fieldY op))
  | 0x1 => .instr (.orReg (fieldX op) (fieldY op))
  | 0x2 => .instr (.andReg (fieldX op) (fieldY op))
  | 0x3 => .instr (.xorReg (fieldX op) (fieldY op))
  | 0x4 => .instr (.addReg (fieldX op) (fieldY op))
  | 0x5 => .instr (.sub (fieldX op) (fieldY op))
  | 0x6 => .instr (.shr (fieldX op) (fieldY op))
  | 0x7 => .instr (.subn (fieldX op) (fieldY op))
  | 0xE => .instr (.shl (fieldX op) (fieldY op))
  | _ => .invalid (.group8 (fieldN op))

/-- Group 0xE, selected by the low byte (R94). -/
def decodeGroupE (op : Word) : Decoded :=
  if fieldNN op = 0x9E then .instr (.skp (fieldX op))
  else if fieldNN op = 0xA1 then .instr (.sknp (fieldX op))
  else .invalid (.groupE (fieldNN op))

/-- Group 0xF, selected by the low byte (R94). -/
def decodeGroupF (op : Word) : Decoded :=
  if fieldNN op = 0x07 then .instr (.ldVxDt (fieldX op))
  else if fieldNN op = 0x0A then .instr (.ldVxK (fieldX op))
  else if fieldNN op = 0x15 then .instr (.ldDtVx (fieldX op))
  else if fieldNN op = 0x18 then .instr (.ldStVx (fieldX op))
  else if fieldNN op = 0x1E then .instr (.addI (fieldX op))
  else if fieldNN op = 0x29 then .instr (.ldF (fieldX op))
  else if fieldNN op = 0x33 then .instr (.ldB (fieldX op))
  else if fieldNN op = 0x55 then .instr (.stRegs (fieldX op))
  else if fieldNN op = 0x65 then .instr (.ldRegs (fieldX op))
  else .invalid (.groupF (fieldNN op))

/-- `Decode(op)` of R96: the top four bits select a group, and the groups are mutually exclusive (R94, R125). -/
def decode (op : Word) : Decoded :=
  match (fieldG op).toNat with
  | 0x0 => decodeGroup0 op
  | 0x1 => .instr (.jp (fieldNNN op))
  | 0x2 => .instr (.call (fieldNNN op))
  | 0x3 => .instr (.seImm (fieldX op) (fieldNN op))
  | 0x4 => .instr (.sneImm (fieldX op) (fieldNN op))
  | 0x5 => .instr (.seReg (fieldX op) (fieldY op) (fieldN op))
  | 0x6 => .instr (.ldImm (fieldX op) (fieldNN op))
  | 0x7 => .instr (.addImm (fieldX op) (fieldNN op))
  | 0x8 => decodeGroup8 op
  | 0x9 => .instr (.sneReg (fieldX op) (fieldY op) (fieldN op))
  | 0xA => .instr (.ldI (fieldNNN op))
  | 0xB => .instr (.jpV0 (fieldNNN op))
  | 0xC => .instr (.rnd (fieldX op) (fieldNN op))
  | 0xD => .instr (.drw (fieldX op) (fieldY op) (fieldN op))
  | 0xE => decodeGroupE op
  | _ => decodeGroupF op

/-- The instruction word two bytes hold: the byte at the lower address is `op[15:8]` (R64). -/
def wordOfBytes (hi lo : Byte) : Word := hi ++ lo

/-- The verdict on a list of bytes in address order. -/
inductive BytesDecoded where
  /-- The first two bytes are an instruction; `rest` follows it. -/
  | instr (i : Instr) (rest : List Byte)
  /-- The first two bytes are an invalid word. -/
  | invalid (why : Invalid)
  /-- Fewer than two bytes: no instruction word (R90). The machine never meets this, its memory has no end. -/
  | tooShort
  deriving DecidableEq, Repr

/-- Decode the instruction at the front of a list of bytes. -/
def decodeBytes : List Byte → BytesDecoded
  | hi :: lo :: rest =>
    match decode (wordOfBytes hi lo) with
    | .instr i => .instr i rest
    | .invalid why => .invalid why
  | _ => .tooShort

/-! ## Encoder (R92, R95) -/

/-- Formats `XI`, and `Z`, `X` with a fixed low byte: group, one nibble, one byte. -/
def encodeXI (g : Nibble) (x : Nibble) (nn : Byte) : Word := g ++ x ++ nn
/-- Format `A`: group, address. -/
def encodeA (g : Nibble) (nnn : Addr) : Word := g ++ nnn
/-- Formats `XY` and `XYN`: group and three nibbles. -/
def encodeXYN (g : Nibble) (x y n : Nibble) : Word := g ++ x ++ y ++ n

/-- The instruction's word, by the pattern column of R95. -/
def encode : Instr → Word
  | .cls ign => encodeXI 0x0 ign 0xE0
  | .ret ign => encodeXI 0x0 ign 0xEE
  | .jp nnn => encodeA 0x1 nnn
  | .call nnn => encodeA 0x2 nnn
  | .seImm x nn => encodeXI 0x3 x nn
  | .sneImm x nn => encodeXI 0x4 x nn
  | .seReg x y ign => encodeXYN 0x5 x y ign
  | .ldImm x nn => encodeXI 0x6 x nn
  | .addImm x nn => encodeXI 0x7 x nn
  | .ldReg x y => encodeXYN 0x8 x y 0x0
  | .orReg x y => encodeXYN 0x8 x y 0x1
  | .andReg x y => encodeXYN 0x8 x y 0x2
  | .xorReg x y => encodeXYN 0x8 x y 0x3
  | .addReg x y => encodeXYN 0x8 x y 0x4
  | .sub x y => encodeXYN 0x8 x y 0x5
  | .shr x y => encodeXYN 0x8 x y 0x6
  | .subn x y => encodeXYN 0x8 x y 0x7
  | .shl x y => encodeXYN 0x8 x y 0xE
  | .sneReg x y ign => encodeXYN 0x9 x y ign
  | .ldI nnn => encodeA 0xA nnn
  | .jpV0 nnn => encodeA 0xB nnn
  | .rnd x nn => encodeXI 0xC x nn
  | .drw x y n => encodeXYN 0xD x y n
  | .skp x => encodeXI 0xE x 0x9E
  | .sknp x => encodeXI 0xE x 0xA1
  | .ldVxDt x => encodeXI 0xF x 0x07
  | .ldVxK x => encodeXI 0xF x 0x0A
  | .ldDtVx x => encodeXI 0xF x 0x15
  | .ldStVx x => encodeXI 0xF x 0x18
  | .addI x => encodeXI 0xF x 0x1E
  | .ldF x => encodeXI 0xF x 0x29
  | .ldB x => encodeXI 0xF x 0x33
  | .stRegs x => encodeXI 0xF x 0x55
  | .ldRegs x => encodeXI 0xF x 0x65

/-! ## The opcode map as a table (R95, R100) -/

/-- A row of R95: its number, mask and match, and the canonical mask of `spec/opcode_table.json` (R100). -/
structure OpcodeRow where
  number : Nat
  mask : Word
  value : Word
  canonicalMask : Word
  deriving DecidableEq, Repr

/-- The row selects the word: `op and mask = match` (R95). -/
def OpcodeRow.selects (r : OpcodeRow) (op : Word) : Bool := op &&& r.mask == r.value

/-- The word is the row's canonical encoding (R100). -/
def OpcodeRow.canonical (r : OpcodeRow) (op : Word) : Bool := op &&& r.canonicalMask == r.value

/-- Rows 1 to 9. -/
def opcodeRowsLow : List OpcodeRow :=
  [⟨1, 0xF0FF, 0x00E0, 0xFFFF⟩, ⟨2, 0xF0FF, 0x00EE, 0xFFFF⟩, ⟨3, 0xF000, 0x1000, 0xF000⟩, ⟨4, 0xF000, 0x2000, 0xF000⟩,
   ⟨5, 0xF000, 0x3000, 0xF000⟩, ⟨6, 0xF000, 0x4000, 0xF000⟩, ⟨7, 0xF000, 0x5000, 0xF00F⟩, ⟨8, 0xF000, 0x6000, 0xF000⟩,
   ⟨9, 0xF000, 0x7000, 0xF000⟩]

/-- Rows 10 to 18, group 0x8. -/
def opcodeRowsGroup8 : List OpcodeRow :=
  [⟨10, 0xF00F, 0x8000, 0xF00F⟩, ⟨11, 0xF00F, 0x8001, 0xF00F⟩, ⟨12, 0xF00F, 0x8002, 0xF00F⟩,
   ⟨13, 0xF00F, 0x8003, 0xF00F⟩, ⟨14, 0xF00F, 0x8004, 0xF00F⟩, ⟨15, 0xF00F, 0x8005, 0xF00F⟩,
   ⟨16, 0xF00F, 0x8006, 0xF00F⟩, ⟨17, 0xF00F, 0x8007, 0xF00F⟩, ⟨18, 0xF00F, 0x800E, 0xF00F⟩]

/-- Rows 19 to 25. -/
def opcodeRowsMiddle : List OpcodeRow :=
  [⟨19, 0xF000, 0x9000, 0xF00F⟩, ⟨20, 0xF000, 0xA000, 0xF000⟩, ⟨21, 0xF000, 0xB000, 0xF000⟩,
   ⟨22, 0xF000, 0xC000, 0xF000⟩, ⟨23, 0xF000, 0xD000, 0xF000⟩, ⟨24, 0xF0FF, 0xE09E, 0xF0FF⟩,
   ⟨25, 0xF0FF, 0xE0A1, 0xF0FF⟩]

/-- Rows 26 to 34, group 0xF. -/
def opcodeRowsGroupF : List OpcodeRow :=
  [⟨26, 0xF0FF, 0xF007, 0xF0FF⟩, ⟨27, 0xF0FF, 0xF00A, 0xF0FF⟩, ⟨28, 0xF0FF, 0xF015, 0xF0FF⟩,
   ⟨29, 0xF0FF, 0xF018, 0xF0FF⟩, ⟨30, 0xF0FF, 0xF01E, 0xF0FF⟩, ⟨31, 0xF0FF, 0xF029, 0xF0FF⟩,
   ⟨32, 0xF0FF, 0xF033, 0xF0FF⟩, ⟨33, 0xF0FF, 0xF055, 0xF0FF⟩, ⟨34, 0xF0FF, 0xF065, 0xF0FF⟩]

/-- The 34 rows of R95, in its order. -/
def opcodeRows : List OpcodeRow := opcodeRowsLow ++ opcodeRowsGroup8 ++ opcodeRowsMiddle ++ opcodeRowsGroupF

/-- The number of the instruction's row in R95. -/
def Instr.row : Instr → Nat
  | .cls _ => 1 | .ret _ => 2 | .jp _ => 3 | .call _ => 4 | .seImm _ _ => 5 | .sneImm _ _ => 6 | .seReg _ _ _ => 7
  | .ldImm _ _ => 8 | .addImm _ _ => 9 | .ldReg _ _ => 10 | .orReg _ _ => 11 | .andReg _ _ => 12 | .xorReg _ _ => 13
  | .addReg _ _ => 14 | .sub _ _ => 15 | .shr _ _ => 16 | .subn _ _ => 17 | .shl _ _ => 18 | .sneReg _ _ _ => 19
  | .ldI _ => 20 | .jpV0 _ => 21 | .rnd _ _ => 22 | .drw _ _ _ => 23 | .skp _ => 24 | .sknp _ => 25 | .ldVxDt _ => 26
  | .ldVxK _ => 27 | .ldDtVx _ => 28 | .ldStVx _ => 29 | .addI _ => 30 | .ldF _ => 31 | .ldB _ => 32 | .stRegs _ => 33
  | .ldRegs _ => 34

/-! ## The host's question -/

/-- The instruction word of a number `w` of which the table gives the low `nbits` bits; every bit above them is 0. -/
def tableWord (nbits w : Nat) : Word := BitVec.ofNat 16 (w % 2 ^ nbits)

/-- The two bytes of a word as they lie in memory, the high byte at the lower address (R64). -/
def bytesOfWord (op : Word) : List Byte := [op.extractLsb' 8 8, op.extractLsb' 0 8]

/-- What the decoder reads from a table row's word, laid out as the hardware stores it. -/
def decodeTableWord (nbits w : Nat) : Option Instr :=
  match decodeBytes (bytesOfWord (tableWord nbits w)) with
  | .instr i _ => some i
  | .invalid _ => none
  | .tooShort => none

end Sys2Proof
end

