-- ==== Sys2Proof/Config.lean ====
section
/-! DEFINITION. The parameters the spec leaves to the implementation (`00_scope.md` R7) and the free values, which no
proof can evaluate. The values this hardware takes stand in `Machine/Parameters.lean`. -/

namespace Sys2Proof

/-- The register SHR and SHL shift: `V[X]` or `V[Y]` (R7, R168, D11; log 6). -/
inductive ShiftSource where
  | vx
  | vy
  deriving DecidableEq, Repr

/-- The configuration fields of R7, fixed for the life of a machine (R35). -/
structure Config where
  /-- `SHIFT_SOURCE`. -/
  shiftSource : ShiftSource
  /-- `FONT`: sixteen glyphs, one for each digit, of five bytes each (R27; log 5). -/
  glyphs : Vector (Vector Byte 5) 16
  deriving DecidableEq, Repr

/-- `FONT[a]`: digit `d` occupies `FONT[5 * d]` to `FONT[5 * d + 4]` (R27); `none` past the 80 bytes. -/
def Config.font (c : Config) (a : Nat) : Option Byte :=
  c.glyphs[a / 5]?.bind fun glyph => glyph[a % 5]?

/-- FREE VALUE: the `k`-th byte the random source gives. "Returns an 8-bit value that no rule constrains" (R173; log 2). -/
opaque Config.randomByte : Nat → Byte

end Sys2Proof
end

