-- ==== Sys2Proof/Machine/State.lean ====
section
/-! DEFINITION. The state of the core (`10_state.md` R20 to R36), the reasons a step could stop, and the state after
reset (`70_reset_and_hazards.md` R300). -/

namespace Sys2Proof.Machine

/-- `MEM[0..4095]` (R33), as the list of the cells that differ from the reset contents, addresses rising (log 10).
`Ops.lean` gives what an unlisted address reads as, the reads and writes, and the canonical form `Memory.wf`. -/
abbrev Memory := List Host.Cell

/-- `DISP[y][x]`: 32 rows of 64 cells, `true` is on (R32). -/
abbrev Display := Vector (Vector Bool 64) 32

/-- Every piece of state of R36, and the model's own counter `draws`. -/
structure State where
  /-- `V[0..15]`; `V[15]` is `VF` (R20, R21). -/
  v : Vector Byte 16
  /-- `I`, the index register (R24). -/
  iReg : Word
  /-- The program counter (R22). -/
  pc : Word
  /-- `SP`, the index of the next free slot of the stack (R25). -/
  sp : BitVec 4
  /-- `STACK[0..15]` (R31). -/
  stack : Vector Word 16
  /-- The delay timer (R26). -/
  dt : Byte
  /-- The sound timer (R26). -/
  st : Byte
  /-- `MEM` (R33). -/
  mem : Memory
  /-- `DISP` (R32). -/
  disp : Display
  /-- `KEYS_CUR`, bit `k` is key `k` (R28). -/
  keysCur : Word
  /-- `KEYS_PREV`, the mask of the previous executed Step (R28). -/
  keysPrev : Word
  /-- `DRAW_FLAG` (R29). -/
  drawFlag : Bool
  /-- `HALTED` (R30). -/
  halted : Bool
  /-- `ERR_OPCODE` (R30). -/
  errOpcode : Word
  /-- `ERR_PC` (R30). -/
  errPc : Word
  /-- The model's own: how many random bytes have been drawn, the `RNG` field R34 allows (logs 1 and 2). -/
  draws : Nat
  deriving DecidableEq, Repr

/-- Reasons a step stops with a fault: none. The only exception is the decode error, which is a state of the core
(R270, R271; log 3); "there is no access fault, no arithmetic fault, no stack fault" (R129). -/
inductive Fault where
  deriving DecidableEq, Repr

/-- Reasons the model declines to answer. -/
inductive Refusal where
  /-- Raised by an arm of `exec` whose instruction has no meaning yet; safe. No arm raises it now. -/
  | notModelled (mnemonic : String)
  deriving DecidableEq, Repr

/-- What an instruction or a step answers. -/
abbrev Answer := Host.Outcome State Fault Refusal

/-- The machine right after Reset (R300). Memory lists nothing: it holds the reset contents of R70. The model's own
`draws` is 0 (DESIGN CHOICE, log 1). -/
def State.reset : State where
  v := Vector.replicate 16 0
  iReg := 0
  pc := 0x200
  sp := 0
  stack := Vector.replicate 16 0
  dt := 0
  st := 0
  mem := []
  disp := Vector.replicate 32 (Vector.replicate 64 false)
  keysCur := 0
  keysPrev := 0
  drawFlag := false
  halted := false
  errOpcode := 0
  errPc := 0
  draws := 0

end Sys2Proof.Machine
end

