-- ==== Sys2Proof/Machine/Ops.lean ====
section
/-! DEFINITION. The named operations over memory, registers, stack, program counter and display that the meanings share;
taking the decode error and the way back from it (`20_memory.md`, `41_control_flow.md`, `44_display.md`,
`60_exceptions.md`). -/

namespace Sys2Proof.Machine

/-! ## Memory (R60 to R63, R70) -/

/-- `MEM_SIZE` (R6). -/
def memSize : Nat := 4096

/-- The reset contents, which is what an unlisted address reads as: the font table at 0x000 to 0x04F, else 0 (R33, R70). -/
def resetByte (a : Nat) : Byte := (hardware.font a).getD 0

/-- The byte at an address below `memSize`. -/
def Memory.byteAt : Memory → Nat → Byte
  | [], a => resetByte a
  | c :: m, a => if c.1 = a then c.2 else Memory.byteAt m a

/-- Put a cell before the first cell of a higher or equal address. -/
def Memory.insertCell (c : Host.Cell) : Memory → Memory
  | [] => [c]
  | d :: m => if c.1 ≤ d.1 then c :: d :: m else d :: Memory.insertCell c m

/-- Set the byte at an address below `memSize`; a byte equal to the reset contents is not listed. -/
def Memory.setByte (m : Memory) (a : Nat) (b : Byte) : Memory :=
  let others := m.filter fun c => c.1 != a
  if b = resetByte a then others else Memory.insertCell (a, b) others

/-- The canonical form: addresses strictly rising and below `memSize`, no cell that holds the reset contents (log 10). -/
abbrev Memory.wf (m : Memory) : Prop :=
  m.Pairwise (fun c d => c.1 < d.1) ∧ ∀ c ∈ m, c.1 < memSize ∧ c.2 ≠ resetByte c.1

/-- `MemRead(a, 1)`: "returns the 8-bit value `MEM[a mod 4096]`" (R60). -/
def Memory.read (m : Memory) (a : Nat) : Byte := Memory.byteAt m (a % memSize)

/-- `MemRead(a, 2)`: big-endian, "the two byte addresses are reduced modulo 4096 separately" (R61, R64). -/
def Memory.read16 (m : Memory) (a : Nat) : Word := wordOfBytes (Memory.read m a) (Memory.read m (a + 1))

/-- `MemWrite(a, 1, v)`: "sets `MEM[a mod 4096] <- v` and changes nothing else" (R62). -/
def Memory.write (m : Memory) (a : Nat) (b : Byte) : Memory := Memory.setByte m (a % memSize) b

/-- Write consecutive bytes from `a` up, each address reduced by itself. -/
def Memory.writeBytes (m : Memory) (a : Nat) : List Byte → Memory
  | [] => m
  | b :: bs => Memory.writeBytes (Memory.write m a b) (a + 1) bs

/-- `MemWrite` on the state. -/
def State.store (s : State) (a : Nat) (b : Byte) : State := { s with mem := s.mem.write a b }

/-! ## General registers (R20) -/

/-- `V[x]`. -/
def State.readV (s : State) (x : Reg) : Byte := s.v[x.toNat]'(x.isLt)

/-- `V[x] <- b`. No register is hard-wired (R20). -/
def State.writeV (s : State) (x : Reg) (b : Byte) : State := { s with v := s.v.set x.toNat b x.isLt }

/-- The index of `VF` (R21). -/
def flagReg : Reg := 0xF

/-- `VF <- 1` or `VF <- 0`. -/
def State.writeFlag (s : State) (f : Bool) : State := s.writeV flagReg (if f then 1 else 0)

/-- The result to `V[x]`, then the flag to `VF`: in this order, so with `x = 15` the flag stays (R160). -/
def State.writeResultFlag (s : State) (x : Reg) (result : Byte) (f : Bool) : State := (s.writeV x result).writeFlag f

/-! ## Program counter and stack (R13, R141, R142) -/

/-- `pc <- t`. -/
def State.jumpTo (s : State) (t : Word) : State := { s with pc := t }

/-- `skip` is `pc <- pc + 2`, modulo 65536 (R13). -/
def State.skipIf (s : State) (c : Bool) : State := if c then s.jumpTo (s.pc + 2) else s

/-- `pc <- pc - 2`: back to the instruction itself (R227). -/
def State.rewind (s : State) : State := s.jumpTo (s.pc - 2)

/-- `STACK[SP] <- t; SP <- (SP + 1) mod 16` (R142, D5). -/
def State.push (s : State) (t : Word) : State :=
  { s with stack := s.stack.set s.sp.toNat t s.sp.isLt, sp := s.sp + 1 }

/-- `SP <- (SP - 1) mod 16; pc <- STACK[SP]` (R141, D5). -/
def State.popPc (s : State) : State :=
  { s with sp := s.sp - 1, pc := s.stack[(s.sp - 1).toNat]'((s.sp - 1).isLt) }

/-! ## Display (R32, R200, R202) -/

/-- Row `y` of the display; a row of cells that are off outside the 32 rows. -/
def Display.row (d : Display) (y : Nat) : Vector Bool 64 := (d[y]?).getD (Vector.replicate 64 false)

/-- `DISP[y][x]`; off outside the 32 rows of 64. -/
def Display.cell (d : Display) (x y : Nat) : Bool := ((Display.row d y)[x]?).getD false

/-- `DISP[y][x] <- DISP[y][x] xor 1`. -/
def Display.flip (d : Display) (x y : Nat) : Display :=
  d.setIfInBounds y ((Display.row d y).setIfInBounds x (!(Display.cell d x y)))

/-- The cleared display. -/
def Display.blank : Display := Vector.replicate 32 (Vector.replicate 64 false)

/-- What the drawing loop of R202 carries: the display, and whether a cell has gone from on to off. -/
structure Canvas where
  disp : Display
  collided : Bool
  deriving DecidableEq, Repr

/-- One sprite bit at a cell of the display: only a 1 bit acts, and it collides when the cell was on (R202, R203). -/
def Canvas.plot (k : Canvas) (x y : Nat) (bit : Bool) : Canvas :=
  if bit then { disp := k.disp.flip x y, collided := k.collided || k.disp.cell x y } else k

/-- The columns `cs` of a sprite row `b` from start column `x0` in display row `y`: bit `7 - c` goes to column
`x0 + c`, and the row stops at the right edge (R202). -/
def Canvas.drawColumns (x0 y : Nat) (b : Byte) : List Nat → Canvas → Canvas
  | [], k => k
  | c :: cs, k =>
    if 64 ≤ x0 + c then k else Canvas.drawColumns x0 y b cs (k.plot (x0 + c) y (b.getLsbD (7 - c)))

/-- The sprite rows `rs`, row `r` read from `base + r` and drawn in display row `y0 + r`; the loop stops at the bottom
edge (R202). -/
def Canvas.drawRows (m : Memory) (base x0 y0 : Nat) : List Nat → Canvas → Canvas
  | [], k => k
  | r :: rs, k =>
    if 32 ≤ y0 + r then k
    else Canvas.drawRows m base x0 y0 rs (Canvas.drawColumns x0 (y0 + r) (m.read (base + r)) (List.range 8) k)

/-! ## Random source (R173) -/

/-- `RandomByte()`: "one RND makes exactly one draw". The byte is free (log 2). -/
def State.randomByte (s : State) : Byte := Config.randomByte s.draws

/-- The draw is used up. -/
def State.drawn (s : State) : State := { s with draws := s.draws + 1 }

/-! ## The decode error and the way back (R270, R271, R275, R300) -/

/-- Taking the decode error for the word `op` fetched at `s.pc`: exactly the writes of R271. -/
def State.raiseDecodeError (s : State) (op : Word) : State :=
  { s with pc := s.pc + 2, halted := true, errOpcode := op, errPc := s.pc, drawFlag := false, keysPrev := s.keysCur }

/-- The only return from the decode error is Reset, "which discards the whole machine state" (R275, R300). The counter
of draws goes on, since Reset does not make the random bytes repeat (R302; log 2). -/
def State.resetMachine (s : State) : State := { State.reset with draws := s.draws }

end Sys2Proof.Machine
end

