-- ==== Sys2Proof/Machine/Cycle.lean ====
section
/-! DEFINITION. What a Step does around the instruction: fetch, advance, and the two writes after it
(`40_step_dispatch.md` R120 to R127). -/

namespace Sys2Proof.Machine

/-- "The instruction word is `MemRead(pc, 2)`" (R122). -/
def State.fetchWord (s : State) : Word := s.mem.read16 s.pc.toNat

/-- `pc <- (a + 2) mod 65536`, before the instruction executes (R123). -/
def State.advance (s : State) : State := { s with pc := s.pc + 2 }

/-- The instruction is DRW (R126). -/
def isDraw : Instr → Bool
  | .drw _ _ _ => true
  | _ => false

/-- Steps 8 and 9 of R120: `DRAW_FLAG` tells whether the instruction was DRW (R126), and the last action is
`KEYS_PREV <- KEYS_CUR` (R127). -/
def State.finish (t : State) (i : Instr) : State := { t with drawFlag := isDraw i, keysPrev := t.keysCur }

/-- The answer of a Step from the answer of its instruction. -/
def completeStep (i : Instr) : Answer → Answer
  | .next t => .next (t.finish i)
  | .fault r => .fault r
  | .refused r => .refused r

end Sys2Proof.Machine
end

