-- ==== Sys2Proof/Machine/Flags.lean ====
section
/-! DEFINITION. Every result that comes with a flag, and the flag: the values `VF` takes (`10_state.md` R21,
`42_alu.md` R166 to R170). The collision flag of DRW is `Canvas.collided` in `Ops.lean`. -/

namespace Sys2Proof.Machine

/-- The "16-bit intermediate sum" of ADD Vx, Vy, 0 to 510 (R166). -/
def wideSum (a b : Byte) : Word := a.setWidth 16 + b.setWidth 16

/-- `t[7:0]` of the sum (R166). -/
def sumByte (a b : Byte) : Byte := (wideSum a b).extractLsb' 0 8

/-- Carry: "1 if sum exceeds 255 else 0" (R166). -/
def carry (a b : Byte) : Bool := decide (255 < (wideSum a b).toNat)

/-- Minuend minus subtrahend, modulo 256 (R167, R169). -/
def differenceByte (minuend subtrahend : Byte) : Byte := minuend - subtrahend

/-- No-borrow: "1 iff the minuend is greater than or equal to the subtrahend" (R167, R169). -/
def noBorrow (minuend subtrahend : Byte) : Bool := decide (subtrahend.toNat ≤ minuend.toNat)

/-- `s >> 1` (R168). -/
def shiftRightByte (b : Byte) : Byte := b >>> 1

/-- `s[0]`, the bit SHR shifts out (R168). -/
def lowBit (b : Byte) : Bool := b.getLsbD 0

/-- `(s << 1) mod 256` (R170). -/
def shiftLeftByte (b : Byte) : Byte := b <<< 1

/-- `s[7]`, the bit SHL shifts out (R170). -/
def highBit (b : Byte) : Bool := b.getLsbD 7

end Sys2Proof.Machine
end

