-- ==== Sys2Proof/Machine/Operands.lean ====
section
/-! DEFINITION. Every operand form: what an instruction's fields and implicit registers stand for (`30_encoding.md` R93,
`43_index_memory.md` R180, `44_display.md` R202, `45_timers_keys.md` R220, R226). -/

namespace Sys2Proof.Machine

/-- `NNN` "zero-extended to 16 bits when written to `pc` or `I`" (R93). -/
def addrWord (nnn : Addr) : Word := nnn.setWidth 16

/-- `zext_16` of a register value (R8). -/
def byteWord (b : Byte) : Word := b.setWidth 16

/-- `I + k`, the address of a data access before the reduction modulo 4096 that the access makes (R180, R63). -/
def State.dataAddr (s : State) (k : Nat) : Nat := s.iReg.toNat + k

/-- The register `V[i]` of a block move, `i` in 0 to 15 (R186, R187). -/
def blockReg (i : Nat) : Reg := BitVec.ofNat 4 i

/-- The indices 0 to `X` of a block move, ascending (R186, R187). -/
def blockIndices (x : Reg) : List Nat := List.range (x.toNat + 1)

/-- The register SHR and SHL shift (R168, R170, D11). -/
def shiftOperand (source : ShiftSource) (s : State) (x y : Reg) : Byte :=
  match source with
  | .vx => s.readV x
  | .vy => s.readV y

/-- `x0 = V[X] mod 64`, the start column of DRW (R202, R204). -/
def startColumn (b : Byte) : Nat := b.toNat % 64

/-- `y0 = V[Y] mod 32`, the start row of DRW (R202, R204). -/
def startRow (b : Byte) : Nat := b.toNat % 32

/-- `5 * zext_16(V[X])`, the address of a digit's glyph; the whole byte counts (R183, D21). -/
def glyphAddr (b : Byte) : Word := 5 * byteWord b

/-- The hundreds, tens and ones of a byte, one digit value per byte (R184, D30). -/
def bcdDigits (b : Byte) : List Byte :=
  [BitVec.ofNat 8 (b.toNat / 100), BitVec.ofNat 8 (b.toNat / 10 % 10), BitVec.ofNat 8 (b.toNat % 10)]

/-- `k = V[X] mod 16`, the key SKP and SKNP test (R220, D16). -/
def keyIndex (b : Byte) : Nat := b.toNat % 16

/-- The key that register `V[x]` names is pressed: a level of `KEYS_CUR`, not an edge (R221). -/
def State.keyPressed (s : State) (x : Reg) : Bool := s.keysCur.getLsbD (keyIndex (s.readV x))

/-- `REL = KEYS_PREV and (not KEYS_CUR)`, the release edges (R226). -/
def State.releaseEdges (s : State) : Word := s.keysPrev &&& ~~~s.keysCur

/-- "The least `i` in 0 .. 15 with `REL[i] = 1`" (R227, D17), if there is one. -/
def leastKey (rel : Word) : Option Nat := (List.range 16).find? fun k => rel.getLsbD k

end Sys2Proof.Machine
end

