-- ==== Sys2Proof/Machine/Alu.lean ====
section
/-! DEFINITION. Register and ALU instructions (`42_alu.md`). The five that write a flag read their sources first, then
write the result, then the flag (R160). -/

namespace Sys2Proof.Machine

/-- LD Vx, NN (R161). -/
def execLdImm (x : Reg) (nn : Byte) (s : State) : Answer := .next (s.writeV x nn)

/-- ADD Vx, NN: modulo 256, no flag (R162). -/
def execAddImm (x : Reg) (nn : Byte) (s : State) : Answer := .next (s.writeV x (s.readV x + nn))

/-- LD Vx, Vy (R163). -/
def execLdReg (x y : Reg) (s : State) : Answer := .next (s.writeV x (s.readV y))

/-- OR Vx, Vy: no flag (R164). -/
def execOrReg (x y : Reg) (s : State) : Answer := .next (s.writeV x (s.readV x ||| s.readV y))

/-- AND Vx, Vy: no flag (R165). -/
def execAndReg (x y : Reg) (s : State) : Answer := .next (s.writeV x (s.readV x &&& s.readV y))

/-- XOR Vx, Vy: no flag (R171). -/
def execXorReg (x y : Reg) (s : State) : Answer := .next (s.writeV x (s.readV x ^^^ s.readV y))

/-- ADD Vx, Vy: `VF` is the carry (R166). -/
def execAddReg (x y : Reg) (s : State) : Answer :=
  .next (s.writeResultFlag x (sumByte (s.readV x) (s.readV y)) (carry (s.readV x) (s.readV y)))

/-- SUB Vx, Vy: `V[X] - V[Y]`, `VF` is no-borrow (R167). -/
def execSub (x y : Reg) (s : State) : Answer :=
  .next (s.writeResultFlag x (differenceByte (s.readV x) (s.readV y)) (noBorrow (s.readV x) (s.readV y)))

/-- SUBN Vx, Vy: `V[Y] - V[X]`, `VF` is no-borrow (R169). -/
def execSubn (x y : Reg) (s : State) : Answer :=
  .next (s.writeResultFlag x (differenceByte (s.readV y) (s.readV x)) (noBorrow (s.readV y) (s.readV x)))

/-- Shift right by one under either value of `SHIFT_SOURCE` (R168). -/
def State.shiftRight (s : State) (source : ShiftSource) (x y : Reg) : State :=
  s.writeResultFlag x (shiftRightByte (shiftOperand source s x y)) (lowBit (shiftOperand source s x y))

/-- Shift left by one under either value of `SHIFT_SOURCE` (R170). -/
def State.shiftLeft (s : State) (source : ShiftSource) (x y : Reg) : State :=
  s.writeResultFlag x (shiftLeftByte (shiftOperand source s x y)) (highBit (shiftOperand source s x y))

/-- SHR Vx, with this hardware's `SHIFT_SOURCE` (R168). -/
def execShr (x y : Reg) (s : State) : Answer := .next (s.shiftRight hardware.shiftSource x y)

/-- SHL Vx, with this hardware's `SHIFT_SOURCE` (R170). -/
def execShl (x y : Reg) (s : State) : Answer := .next (s.shiftLeft hardware.shiftSource x y)

/-- RND Vx, NN: `V[X] <- r and NN` for one free draw `r` (R172, R173). -/
def execRnd (x : Reg) (nn : Byte) (s : State) : Answer := .next (s.drawn.writeV x (s.randomByte &&& nn))

end Sys2Proof.Machine
end

