-- ==== Sys2Proof/Machine/ControlFlow.lean ====
section
/-! DEFINITION. Control-flow instructions (`41_control_flow.md`). Every meaning is step 7 of R120: `pc` already holds
`a + 2`, where `a` is the address of the instruction (R131). -/

namespace Sys2Proof.Machine

/-- JP NNN: `pc <- NNN` (R140). -/
def execJp (nnn : Addr) (s : State) : Answer := .next (s.jumpTo (addrWord nnn))

/-- RET: `SP <- (SP - 1) mod 16; pc <- STACK[SP]` (R141). -/
def execRet (s : State) : Answer := .next s.popPc

/-- CALL NNN: `STACK[SP] <- pc; SP <- (SP + 1) mod 16; pc <- NNN` (R142). -/
def execCall (nnn : Addr) (s : State) : Answer := .next ((s.push s.pc).jumpTo (addrWord nnn))

/-- SE Vx, NN: skip if equal (R144). -/
def execSeImm (x : Reg) (nn : Byte) (s : State) : Answer := .next (s.skipIf (s.readV x == nn))

/-- SNE Vx, NN: skip if not equal (R145). -/
def execSneImm (x : Reg) (nn : Byte) (s : State) : Answer := .next (s.skipIf (s.readV x != nn))

/-- SE Vx, Vy: skip if equal (R146). -/
def execSeReg (x y : Reg) (s : State) : Answer := .next (s.skipIf (s.readV x == s.readV y))

/-- SNE Vx, Vy: skip if not equal (R147). -/
def execSneReg (x y : Reg) (s : State) : Answer := .next (s.skipIf (s.readV x != s.readV y))

/-- JP V0, NNN: `pc <- (NNN + zext_16(V[0])) mod 65536`, not masked to 12 bits (R149). -/
def execJpV0 (nnn : Addr) (s : State) : Answer := .next (s.jumpTo (addrWord nnn + byteWord (s.readV 0)))

end Sys2Proof.Machine
end

