-- ==== Sys2Proof/Machine/IndexMemory.lean ====
section
/-! DEFINITION. Index-register and memory instructions (`43_index_memory.md`). `I` is changed by the first three only
(R180, R185). -/

namespace Sys2Proof.Machine

/-- LD I, NNN: `I <- zext_16(NNN)` (R181). -/
def execLdI (nnn : Addr) (s : State) : Answer := .next { s with iReg := addrWord nnn }

/-- ADD I, Vx: modulo 65536, no flag (R182). -/
def execAddI (x : Reg) (s : State) : Answer := .next { s with iReg := s.iReg + byteWord (s.readV x) }

/-- LD F, Vx: `I <- 5 * zext_16(V[X])` (R183). -/
def execLdF (x : Reg) (s : State) : Answer := .next { s with iReg := glyphAddr (s.readV x) }

/-- LD B, Vx: hundreds, tens and ones at `I`, `I + 1`, `I + 2` (R184). -/
def execLdB (x : Reg) (s : State) : Answer :=
  .next { s with mem := s.mem.writeBytes (s.dataAddr 0) (bcdDigits (s.readV x)) }

/-- LD [I], Vx: `MemWrite(I + i, 1, V[i])` for `i` in 0 .. X, ascending (R186). -/
def execStRegs (x : Reg) (s : State) : Answer :=
  .next ((blockIndices x).foldl (fun t i => t.store (t.dataAddr i) (t.readV (blockReg i))) s)

/-- LD Vx, [I]: `V[i] <- MemRead(I + i, 1)` for `i` in 0 .. X, ascending (R187). -/
def execLdRegs (x : Reg) (s : State) : Answer :=
  .next ((blockIndices x).foldl (fun t i => t.writeV (blockReg i) (t.mem.read (t.dataAddr i))) s)

end Sys2Proof.Machine
end

