-- ==== Sys2Proof/Machine/Screen.lean ====
section
/-! DEFINITION. Display instructions (`44_display.md`). `DRAW_FLAG` is written by the Step, not here (R126). -/

namespace Sys2Proof.Machine

/-- CLS: every cell off; `VF` untouched (R201). -/
def execCls (s : State) : Answer := .next { s with disp := Display.blank }

/-- What DRW draws, from the state after `VF` has been cleared: `n` sprite rows from `I` at column `V[X] mod 64` and
row `V[Y] mod 32` (R202). -/
def State.spriteCanvas (s : State) (x y : Reg) (n : Nibble) : Canvas :=
  Canvas.drawRows s.mem (s.dataAddr 0) (startColumn (s.readV x)) (startRow (s.readV y)) (List.range n.toNat)
    { disp := s.disp, collided := false }

/-- DRW Vx, Vy, N: `VF <- 0` before the coordinates are read, then the sprite, then `VF <- 1` on a collision (R202). -/
def execDrw (x y : Reg) (n : Nibble) (s : State) : Answer :=
  let cleared := s.writeFlag false
  let k := cleared.spriteCanvas x y n
  .next ({ cleared with disp := k.disp }.writeFlag k.collided)

end Sys2Proof.Machine
end

