-- ==== Sys2Proof/Machine/TimersKeys.lean ====
section
/-! DEFINITION. Timer and key instructions (`45_timers_keys.md`). -/

namespace Sys2Proof.Machine

/-- SKP Vx: skip if the key is pressed (R221). -/
def execSkp (x : Reg) (s : State) : Answer := .next (s.skipIf (s.keyPressed x))

/-- SKNP Vx: skip if the key is not pressed (R222). -/
def execSknp (x : Reg) (s : State) : Answer := .next (s.skipIf (!(s.keyPressed x)))

/-- LD Vx, DT: `V[X] <- DT` (R223). -/
def execLdVxDt (x : Reg) (s : State) : Answer := .next (s.writeV x s.dt)

/-- LD DT, Vx: `DT <- V[X]` (R224). -/
def execLdDtVx (x : Reg) (s : State) : Answer := .next { s with dt := s.readV x }

/-- LD ST, Vx: `ST <- V[X]` (R225). -/
def execLdStVx (x : Reg) (s : State) : Answer := .next { s with st := s.readV x }

/-- LD Vx, K: with no release edge back to the instruction itself, else the least released key to `V[X]` (R227). -/
def execLdVxK (x : Reg) (s : State) : Answer :=
  match leastKey s.releaseEdges with
  | none => .next s.rewind
  | some k => .next (s.writeV x (BitVec.ofNat 8 k))

end Sys2Proof.Machine
end

