-- ==== Sys2Proof/Machine/Step.lean ====
section
/-! DEFINITION. The Step operation (`40_step_dispatch.md` R120, R121), and how the host places an instruction where the
next Step fetches. -/

namespace Sys2Proof.Machine

/-- One Step (R120): a halted core changes nothing (R121); an invalid word takes the decode error (R271); any other word
runs its instruction. -/
def step (s : State) : Host.Outcome State Fault Refusal :=
  if s.halted then .next s
  else
    match decode s.fetchWord with
    | .instr i => completeStep i (exec i s.advance)
    | .invalid _ => .next (s.raiseDecodeError s.fetchWord)

/-- The state with the instruction word `w` in memory at `pc`, big-endian, and the core not halted, so that the next
Step fetches and runs it (log 9). -/
def State.withFetchWord (s : State) (nbits w : Nat) : State :=
  { s with mem := s.mem.writeBytes s.pc.toNat (bytesOfWord (tableWord nbits w)), halted := false }

end Sys2Proof.Machine
end

