-- ==== Sys2Proof/Machine/Requests.lean ====
section
/-! DEFINITION. What the Host Shell can do to the core beside Step, and what it can read (`50_host_interface.md`,
`60_exceptions.md` R280, `70_reset_and_hazards.md` R300). -/

namespace Sys2Proof.Machine

/-! ## Requests that write (R241, R244, R245, R247) -/

/-- A timer after one Tick: "a timer at 0 stays at 0" (R280). -/
def tickTimer (t : Byte) : Byte := if t = 0 then 0 else t - 1

/-- Tick: each timer that is not 0 goes down by one; nothing else changes, halted or not (R280, R244). -/
def State.tick (s : State) : State := { s with dt := tickTimer s.dt, st := tickTimer s.st }

/-- SetKeys: "`KEYS_CUR <- keys_wr_data`; nothing else changes, in particular not `KEYS_PREV`" (R245). -/
def State.setKeys (s : State) (mask : Word) : State := { s with keysCur := mask }

/-- `ROM_BASE` (R6). -/
def romBase : Nat := 0x200

/-- The room above `ROM_BASE`, in bytes (R70, R247). -/
def romRoom : Nat := 3584

/-- Load: the first 3584 bytes of the ROM from 0x200 up, the others dropped; "changes no other state" (R247). -/
def State.load (s : State) (rom : List Byte) : State :=
  { s with mem := s.mem.writeBytes romBase (rom.take romRoom) }

/-- Reset: every piece of state to its reset value; the instruction rate "is accepted and ignored" (R241, R300). -/
def State.resetRequest (s : State) (_instrRate : Nat) : State := s.resetMachine

/-! ## Step result (R129, R243) -/

/-- The result of a Step (R129). -/
inductive StepResult where
  | ok
  | decodeError (opcode : Word)
  deriving DecidableEq, Repr

/-- The result of the Step that has just ended in state `t`: a decode error exactly when it left or found the core
halted, with the latched word (R120, R121, R243). -/
def State.stepResult (t : State) : StepResult := if t.halted then .decodeError t.errOpcode else .ok

/-- The values the ports `step_result` and `step_opcode` may show for a result: for Ok, `step_opcode` is any word (R243;
log 4). -/
abbrev StepResult.ports (r : StepResult) (stepResult : BitVec 1) (stepOpcode : Word) : Prop :=
  match r with
  | .ok => stepResult = 0
  | .decodeError opcode => stepResult = 1 ∧ stepOpcode = opcode

/-! ## Reads (R246, R248 to R251): no side effect -/

/-- GetKeys: `keys_rd_data = KEYS_CUR` (R246). -/
def State.getKeys (s : State) : Word := s.keysCur

/-- Display snapshot: `disp_rd(x, y) = DISP[y][x]` (R248). -/
def State.dispRd (s : State) (x : BitVec 6) (y : BitVec 5) : Bool := s.disp.cell x.toNat y.toNat

/-- Draw signal: `draw_flag = DRAW_FLAG` (R249). -/
def State.drawSignal (s : State) : Bool := s.drawFlag

/-- Diagnostics: "read access to `V[0..15]`, `I`, `pc`, `SP`, `STACK[0..15]`, `DT`, `ST`" (R250). -/
structure Diagnostics where
  v : Vector Byte 16
  iReg : Word
  pc : Word
  sp : BitVec 4
  stack : Vector Word 16
  dt : Byte
  st : Byte
  deriving DecidableEq, Repr

/-- What the Diagnostics port shows (R250). -/
def State.diagnostics (s : State) : Diagnostics where
  v := s.v
  iReg := s.iReg
  pc := s.pc
  sp := s.sp
  stack := s.stack
  dt := s.dt
  st := s.st

/-- Error status: `halted`, `err_opcode`, `err_pc` (R251). -/
structure ErrorStatus where
  halted : Bool
  errOpcode : Word
  errPc : Word
  deriving DecidableEq, Repr

/-- What the error status outputs show (R251). -/
def State.errorStatus (s : State) : ErrorStatus where
  halted := s.halted
  errOpcode := s.errOpcode
  errPc := s.errPc

end Sys2Proof.Machine
end

