-- ==== Sys2Proof/Machine/Shell.lean ====
section
/-! DEFINITION. The core as the Host Shell drives it: one request at a time, in any order, or several at the same moment
in the fixed order of R240 (`50_host_interface.md`; log 8). -/

namespace Sys2Proof.Machine

/-- The requests of R240. The reads are one constructor: none of them changes the state (R246, R248 to R251). -/
inductive Request where
  | reset (instrRate : Nat)
  | load (rom : List Byte)
  | setKeys (mask : Word)
  | step
  | tick
  | read
  deriving DecidableEq, Repr

/-- "Each request is one atomic transition of the state" (R240). -/
def serve (r : Request) (s : State) : Answer :=
  match r with
  | .reset instrRate => .next (s.resetRequest instrRate)
  | .load rom => .next (s.load rom)
  | .setKeys mask => .next (s.setKeys mask)
  | .step => step s
  | .tick => .next s.tick
  | .read => .next s

/-- Serve requests one after another, stopping at the first answer that is no next state. -/
def serveAll : List Request → State → Answer
  | [], s => .next s
  | r :: rs, s =>
    match serve r s with
    | .next t => serveAll rs t
    | .fault f => .fault f
    | .refused f => .refused f

/-- The requests the Host Shell makes at one moment; reads see the state after all of them (R240). -/
structure Moment where
  reset : Option Nat
  load : Option (List Byte)
  setKeys : Option Word
  step : Bool
  tick : Bool
  deriving DecidableEq, Repr

/-- The order of simultaneous requests: "Reset first (and it cancels every other request made with it), then Load, then
SetKeys, then Step, then Tick" (R240, D2). -/
def Moment.requests (m : Moment) : List Request :=
  match m.reset with
  | some instrRate => [.reset instrRate]
  | none =>
    (m.load.toList.map Request.load) ++ (m.setKeys.toList.map Request.setKeys) ++ (if m.step then [.step] else [])
      ++ (if m.tick then [.tick] else [])

/-- Serve the requests of one moment. -/
def serveMoment (m : Moment) (s : State) : Answer := serveAll m.requests s

end Sys2Proof.Machine
end

