-- ==== Sys2Proof/Safety.lean ====
section
/-! DEFINITION. The terms claims use: the invariant of every state a run can reach, the model's end of a run, and the
obligations of programs and of the Host Shell, which the hardware does not check (`70_reset_and_hazards.md` R304 to R313,
`50_host_interface.md` R253). -/

namespace Sys2Proof.Safety

open Sys2Proof.Machine

/-! ## The invariant -/

/-- A halted core has latched an invalid word and where it was fetched (R30, R271); one that is not halted has a clear
error latch, since only a failing Step and Reset write it (R30). -/
structure LatchInv (s : State) : Prop where
  /-- The latched word did not decode (R270). -/
  invalid : s.halted = true → ∃ why, decode s.errOpcode = .invalid why
  /-- `pc` is left two past the address of the offending word (R271). -/
  pc : s.halted = true → s.pc = s.errPc + 2
  /-- The failing Step wrote `DRAW_FLAG <- 0` (R271). -/
  draw : s.halted = true → s.drawFlag = false
  /-- `ERR_OPCODE` and `ERR_PC` have their reset value until a Step fails. -/
  clear : s.halted = false → s.errOpcode = 0 ∧ s.errPc = 0

/-- The invariant: memory is canonical (log 10), and the error latch tells the truth. -/
structure Inv (s : State) : Prop where
  memory : s.mem.wf
  latch : LatchInv s

/-! ## End of a run (D34, R305; log 19) -/

/-- The next word is a jump to its own address: "a one-instruction endless loop" (R140). -/
def selfJump (s : State) : Bool :=
  match decode s.fetchWord with
  | .instr (.jp nnn) => addrWord nnn == s.pc
  | _ => false

/-- The model's own end of a run: the core is halted, or the program jumps to itself (DESIGN CHOICE; log 19). -/
def endOfRun (s : State) : Bool := s.halted || selfJump s

/-! ## Sprites, cell by cell -/

/-- The sprite of `n` rows at `base`, started at column `x0` and row `y0`, has a 1 bit at the cell `(x, y)`: row `r` is
the byte at `base + r`, and its bit 7 is the first column (R202). -/
def spriteBit (m : Memory) (base x0 y0 n x y : Nat) : Bool :=
  decide (x0 ≤ x ∧ x < x0 + 8 ∧ y0 ≤ y ∧ y < y0 + n) && (m.read (base + (y - y0))).getLsbD (7 - (x - x0))

/-! ## What an instruction leaves unchanged (R131) -/

/-- Every byte of memory reads as before. -/
def memSame (s t : State) : Prop := ∀ a, t.mem.read a = s.mem.read a

/-- Every byte of memory reads as before, but the `n` bytes that a data access at `I`, `I + 1`, ... addresses (R180). -/
def memSameOutside (n : Nat) (s t : State) : Prop :=
  ∀ a, (∀ j < n, s.dataAddr j % memSize ≠ a % memSize) → t.mem.read a = s.mem.read a

/-- From `s` to `t` register `x` takes the value `b`, and nothing else changes. -/
def writesOnly (s t : State) (x : Reg) (b : Byte) : Prop :=
  (∀ r, t.readV r = if r = x then b else s.readV r) ∧ t = { s with v := t.v } ∧ memSame s t

/-- From `s` to `t` register `x` takes a result and `VF` a flag, the flag last (R160), and nothing else changes. -/
def writesResultFlagOnly (s t : State) (x : Reg) (result flag : Byte) : Prop :=
  (∀ r, t.readV r = if r = flagReg then flag else if r = x then result else s.readV r) ∧ t = { s with v := t.v } ∧
    memSame s t

/-- The instruction may write register `r`: `r` is a destination, or `VF` for the six instructions of R21. -/
def mayWriteReg (i : Instr) (r : Reg) : Bool :=
  match i with
  | .ldImm x _ | .addImm x _ | .ldReg x _ | .orReg x _ | .andReg x _ | .xorReg x _ | .rnd x _ | .ldVxDt x
  | .ldVxK x => r == x
  | .addReg x _ | .sub x _ | .shr x _ | .subn x _ | .shl x _ => r == x || r == flagReg
  | .drw _ _ _ => r == flagReg
  | .ldRegs x => decide (r.toNat ≤ x.toNat)
  | .cls _ | .ret _ | .jp _ | .call _ | .seImm _ _ | .sneImm _ _ | .seReg _ _ _ | .sneReg _ _ _ | .ldI _ | .jpV0 _
  | .skp _ | .sknp _ | .ldDtVx _ | .ldStVx _ | .addI _ | .ldF _ | .ldB _ | .stRegs _ => false

/-! ## Calls and returns in a row -/

/-- Execute a CALL for each pair, with `pc` set to the pair's return address first. -/
def callsInRow : List (Word × Addr) → State → Answer
  | [], s => .next s
  | c :: cs, s =>
    match exec (.call c.2) { s with pc := c.1 } with
    | .next t => callsInRow cs t
    | .fault f => .fault f
    | .refused f => .refused f

/-- Execute `n` RETs; the list holds the `pc` after each, the first one first. -/
def returnsInRow : Nat → State → Option (List Word)
  | 0, _ => some []
  | n + 1, s =>
    match exec (.ret 0) s with
    | .next t => (returnsInRow n t).map fun l => t.pc :: l
    | _ => none

/-! ## Obligations of a program -/

/-- `pc` is "a valid even-aligned instruction start within memory bounds" (R306). -/
def pcMeaningful (s : State) : Bool := s.pc.toNat % 2 == 0 && decide (s.pc.toNat < memSize)

/-- The change of call depth an instruction makes. -/
def depthChange : Instr → Int
  | .call _ => 1
  | .ret _ => -1
  | _ => 0

/-- Calls and returns are matched and no deeper than 16 along the instructions executed from depth `d` on (R307). -/
def callsMatched (d : Int) : List Instr → Bool
  | [] => true
  | i :: is => decide (0 ≤ d + depthChange i ∧ d + depthChange i ≤ 16) && callsMatched (d + depthChange i) is

/-- `VF` is neither the destination of an ALU instruction that writes a flag nor a coordinate of DRW (R308). -/
def flagNotOperand : Instr → Bool
  | .addReg x _ | .sub x _ | .shr x _ | .subn x _ | .shl x _ => x != flagReg
  | .drw x y _ => x != flagReg && y != flagReg
  | _ => true

/-- Key indices and digits are in 0 to 15 (R312). -/
def operandInRange (s : State) : Instr → Bool
  | .skp x | .sknp x | .ldF x => decide ((s.readV x).toNat < 16)
  | _ => true

/-- SHR and SHL name the same register twice, so that `SHIFT_SOURCE` does not matter (R313). -/
def portableShift : Instr → Bool
  | .shr x y | .shl x y => x == y
  | _ => true

/-- The next Step meets every obligation the spec puts on a program at one Step (R306, R308, R312, R313), and the word at
`pc` is an instruction. -/
def safeStep (s : State) : Bool :=
  !s.halted && pcMeaningful s &&
    match decode s.fetchWord with
    | .instr i => flagNotOperand i && operandInRange s i && portableShift i
    | .invalid _ => false

/-! ## Obligations of the Host Shell -/

/-- "Reset, then Load the ROM, then begin to Step" (R253, R304), with a ROM that fits (U8). -/
def hostStartsProperly : List Request → Bool
  | .reset _ :: .load rom :: _ => decide (rom.length ≤ romRoom)
  | _ => false

end Sys2Proof.Safety
end

