-- ==== Sys2Proof/Certificates/Slice0/Obligations.lean ====
section
/-! DEFINITION. The statements for the provers. Each docstring names the rule of the spec it formalises; the terms are
those of `Safety.lean`. An instruction's statement is about `exec`, which sees `pc = a + 2` (R131). -/

open Sys2Proof Sys2Proof.Machine Sys2Proof.Safety

/-! ## Encoding -/

/-- Words written out from the patterns of R95 decode to the instructions they stand for, and two words of R97 are
invalid. `0x0AEE` is a RET that is not canonical (R100); that its term keeps the ignored nibble `0xA` is the model's
choice (log 26). -/
def Obligations.SampleWordsDecode : Prop :=
  decode 0x6005 = .instr (.ldImm 0 0x05) ∧ decode 0x7003 = .instr (.addImm 0 0x03) ∧
  decode 0x1200 = .instr (.jp 0x200) ∧ decode 0x0AEE = .instr (.ret 0xA) ∧ decode 0x8127 = .instr (.subn 1 2) ∧
  decode 0xA2F0 = .instr (.ldI 0x2F0) ∧ decode 0xD015 = .instr (.drw 0 1 5) ∧ decode 0xF50A = .instr (.ldVxK 5) ∧
  decode 0x00FD = .invalid (.group0 0xFD) ∧ decode 0x8AA8 = .invalid (.group8 0x8)

/-- Every instruction, with every operand value and every value of its ignored bits, is read back from its own
bytes. That a term has ignored bits at all is the model's choice (log 26). -/
def Obligations.DecodeOfEncodeIsTheInstruction : Prop :=
  ∀ (i : Instr) (rest : List Byte), decodeBytes (bytesOfWord (encode i) ++ rest) = .instr i rest

/-- A word that decodes is the encoding of what it decodes to. On the words that are not canonical this is the model's
choice (log 26): the decoder ignores their extra bits (R92, R100), but the model's term keeps them. -/
def Obligations.EncodeOfDecodeIsTheWord : Prop :=
  ∀ (op : Word) (i : Instr), decode op = .instr i → encode i = op

/-- R92, R93, R95: every operand is the word's own bits, unscaled, in the places of the pattern column. The
argument `ign` is no operand: it is the ignored bits, which the model's term keeps (log 26: the model's choice). -/
def Obligations.OperandsAreTheBitsOfTheWord : Prop :=
  ∀ (op : Word) (i : Instr), decode op = .instr i → op.toNat = match i with
    | .cls ign => 0x00E0 + 256 * ign.toNat
    | .ret ign => 0x00EE + 256 * ign.toNat
    | .jp nnn => 0x1000 + nnn.toNat
    | .call nnn => 0x2000 + nnn.toNat
    | .seImm x nn => 0x3000 + 256 * x.toNat + nn.toNat
    | .sneImm x nn => 0x4000 + 256 * x.toNat + nn.toNat
    | .seReg x y ign => 0x5000 + 256 * x.toNat + 16 * y.toNat + ign.toNat
    | .ldImm x nn => 0x6000 + 256 * x.toNat + nn.toNat
    | .addImm x nn => 0x7000 + 256 * x.toNat + nn.toNat
    | .ldReg x y => 0x8000 + 256 * x.toNat + 16 * y.toNat
    | .orReg x y => 0x8001 + 256 * x.toNat + 16 * y.toNat
    | .andReg x y => 0x8002 + 256 * x.toNat + 16 * y.toNat
    | .xorReg x y => 0x8003 + 256 * x.toNat + 16 * y.toNat
    | .addReg x y => 0x8004 + 256 * x.toNat + 16 * y.toNat
    | .sub x y => 0x8005 + 256 * x.toNat + 16 * y.toNat
    | .shr x y => 0x8006 + 256 * x.toNat + 16 * y.toNat
    | .subn x y => 0x8007 + 256 * x.toNat + 16 * y.toNat
    | .shl x y => 0x800E + 256 * x.toNat + 16 * y.toNat
    | .sneReg x y ign => 0x9000 + 256 * x.toNat + 16 * y.toNat + ign.toNat
    | .ldI nnn => 0xA000 + nnn.toNat
    | .jpV0 nnn => 0xB000 + nnn.toNat
    | .rnd x nn => 0xC000 + 256 * x.toNat + nn.toNat
    | .drw x y n => 0xD000 + 256 * x.toNat + 16 * y.toNat + n.toNat
    | .skp x => 0xE09E + 256 * x.toNat
    | .sknp x => 0xE0A1 + 256 * x.toNat
    | .ldVxDt x => 0xF007 + 256 * x.toNat
    | .ldVxK x => 0xF00A + 256 * x.toNat
    | .ldDtVx x => 0xF015 + 256 * x.toNat
    | .ldStVx x => 0xF018 + 256 * x.toNat
    | .addI x => 0xF01E + 256 * x.toNat
    | .ldF x => 0xF029 + 256 * x.toNat
    | .ldB x => 0xF033 + 256 * x.toNat
    | .stRegs x => 0xF055 + 256 * x.toNat
    | .ldRegs x => 0xF065 + 256 * x.toNat

/-- R95: "a word `op` selects the row when `op and mask = match`", and the decoder (R96) gives that row's instruction. -/
def Obligations.DecoderFollowsTheOpcodeMap : Prop :=
  ∀ (op : Word), ∀ r ∈ opcodeRows, r.selects op = true ↔ ∃ i, decode op = .instr i ∧ i.row = r.number

/-- R95: "The rows are pairwise disjoint: no word matches two rows." -/
def Obligations.NoWordMatchesTwoRows : Prop :=
  ∀ r ∈ opcodeRows, ∀ q ∈ opcodeRows, ∀ op : Word, r.selects op = true → q.selects op = true → r = q

/-- R97's table, group by group; the word is read as a number (its counts are not restated). -/
def Obligations.InvalidWordsAreExactlyThoseOfTheFourGroups : Prop :=
  ∀ op : Word, (∃ why, decode op = .invalid why) ↔
    (op.toNat / 4096 = 0x0 ∧ op.toNat % 256 ∉ [0xE0, 0xEE]) ∨
    (op.toNat / 4096 = 0x8 ∧ op.toNat % 16 ∈ [0x8, 0x9, 0xA, 0xB, 0xC, 0xD, 0xF]) ∨
    (op.toNat / 4096 = 0xE ∧ op.toNat % 256 ∉ [0x9E, 0xA1]) ∨
    (op.toNat / 4096 = 0xF ∧ op.toNat % 256 ∉ [0x07, 0x0A, 0x15, 0x18, 0x1E, 0x29, 0x33, 0x55, 0x65])

/-- R100: an instruction is well formed exactly when its word is the row's canonical encoding (log 26: the term
keeps the ignored bits, the model's choice), and the ignored bits do not change what an instruction does. -/
def Obligations.CanonicalEncodingsAndIgnoredBits : Prop :=
  (∀ (op : Word) (i : Instr), decode op = .instr i →
    (i.wellFormed = true ↔ ∃ r ∈ opcodeRows, r.number = i.row ∧ r.canonical op = true)) ∧
  (∀ (x y : Reg) (ign : Nibble) (s : State), exec (.cls ign) s = exec (.cls 0) s ∧ exec (.ret ign) s = exec (.ret 0) s ∧
    exec (.seReg x y ign) s = exec (.seReg x y 0) s ∧ exec (.sneReg x y ign) s = exec (.sneReg x y 0) s)

/-! ## The Step operation -/

/-- R120, R121, R122: a halted core answers the same state; otherwise the word of the bytes at `pc` and `pc + 1`, the
first the high byte, is decoded, and a Step is `exec` of the instruction with `pc` advanced by 2, then the draw flag and
the key snapshot; an invalid word takes the decode error. -/
def Obligations.StepRunsTheDecodedInstruction : Prop :=
  ∀ (s : State) (op : Word), op = wordOfBytes (s.mem.read s.pc.toNat) (s.mem.read (s.pc.toNat + 1)) →
    (s.halted = true → step s = .next s) ∧
    (∀ i, s.halted = false → decode op = .instr i → ∃ t, exec i { s with pc := s.pc + 2 } = .next t ∧
      step s = .next { t with drawFlag := decide (i.row = 23), keysPrev := t.keysCur }) ∧
    (∀ why, s.halted = false → decode op = .invalid why → step s = .next
      { s with pc := s.pc + 2, halted := true, errOpcode := op, errPc := s.pc, drawFlag := false, keysPrev := s.keysCur })

/-- R271: the entry of the decode error writes exactly these six registers; the result is `DecodeError(op)` (R270). -/
def Obligations.DecodeErrorEntryWritesExactlySix : Prop :=
  ∀ (s : State) (why : Invalid), s.halted = false → decode s.fetchWord = .invalid why →
    ∃ t, step s = .next t ∧ t.pc = s.pc + 2 ∧ t.halted = true ∧ t.errOpcode = s.fetchWord ∧ t.errPc = s.pc ∧
      t.drawFlag = false ∧ t.keysPrev = s.keysCur ∧ t.stepResult = .decodeError s.fetchWord ∧ memSame s t ∧
      t = { s with pc := t.pc, halted := t.halted, errOpcode := t.errOpcode, errPc := t.errPc, drawFlag := t.drawFlag,
                   keysPrev := t.keysPrev }

/-- R129: a Step returns Ok or a decode error with the offending word, and can fail in no other way. -/
def Obligations.StepReturnsOkOrDecodeError : Prop :=
  ∀ s : State, ∃ t, step s = .next t ∧
    (s.halted = true → t.stepResult = .decodeError s.errOpcode) ∧
    (∀ i, s.halted = false → decode s.fetchWord = .instr i → t.stepResult = .ok) ∧
    (∀ why, s.halted = false → decode s.fetchWord = .invalid why → t.stepResult = .decodeError s.fetchWord)

/-- R126, R127: every executed Step writes `DRAW_FLAG`, 1 for DRW only, and ends with `KEYS_PREV <- KEYS_CUR`. -/
def Obligations.ExecutedStepWritesDrawFlagAndSnapshot : Prop :=
  ∀ s : State, s.halted = false → ∃ t, step s = .next t ∧ t.keysPrev = s.keysCur ∧ t.keysCur = s.keysCur ∧
    (t.drawFlag = true ↔ ∃ x y n, decode s.fetchWord = .instr (.drw x y n))

/-- R128: a Step changes `DT` and `ST` by LD DT, Vx and LD ST, Vx only, and never `KEYS_CUR`. -/
def Obligations.StepNeverDecrementsTimersNorPollsKeys : Prop :=
  ∀ s : State, ∃ t, step s = .next t ∧ t.keysCur = s.keysCur ∧
    (t.dt ≠ s.dt → ∃ x, decode s.fetchWord = .instr (.ldDtVx x) ∧ t.dt = s.readV x) ∧
    (t.st ≠ s.st → ∃ x, decode s.fetchWord = .instr (.ldStVx x) ∧ t.st = s.readV x)

/-- R23 and R148: how each instruction, and an invalid word, leave `pc`; here `s.pc` is the address `a`. -/
def Obligations.ProgramCounterAfterEachStep : Prop :=
  (∀ (s : State) (i : Instr), s.halted = false → decode s.fetchWord = .instr i → ∃ t, step s = .next t ∧
    match i with
    | .seImm x nn => t.pc = if s.readV x = nn then s.pc + 4 else s.pc + 2
    | .sneImm x nn => t.pc = if s.readV x = nn then s.pc + 2 else s.pc + 4
    | .seReg x y _ => t.pc = if s.readV x = s.readV y then s.pc + 4 else s.pc + 2
    | .sneReg x y _ => t.pc = if s.readV x = s.readV y then s.pc + 2 else s.pc + 4
    | .skp x => t.pc = if s.keysCur.getLsbD ((s.readV x).toNat % 16) = true then s.pc + 4 else s.pc + 2
    | .sknp x => t.pc = if s.keysCur.getLsbD ((s.readV x).toNat % 16) = true then s.pc + 2 else s.pc + 4
    | .jp nnn => t.pc.toNat = nnn.toNat
    | .call nnn => t.pc.toNat = nnn.toNat ∧ t.stack[s.sp.toNat]? = some (s.pc + 2)
    | .ret _ => s.stack[(s.sp.toNat + 15) % 16]? = some t.pc
    | .jpV0 nnn => t.pc.toNat = nnn.toNat + (s.readV 0).toNat
    | .ldVxK _ => t.pc = if s.keysPrev &&& ~~~s.keysCur = 0 then s.pc else s.pc + 2
    | _ => t.pc = s.pc + 2) ∧
  (∀ (s : State) (why : Invalid), s.halted = false → decode s.fetchWord = .invalid why →
    ∃ t, step s = .next t ∧ t.pc = s.pc + 2 ∧ t.halted = true)

/-! ## What each kind of state can be changed by -/

/-- A register changes only if it is the instruction's destination, or `VF` under one of the six instructions of R21. -/
def Obligations.RegistersChangeOnlyAsDestinationOrFlag : Prop :=
  ∀ (i : Instr) (s : State), ∃ t, exec i s = .next t ∧ ∀ r, mayWriteReg i r = false → t.readV r = s.readV r

/-- R185, and more: only LD I, ADD I and LD F (rows 20, 30, 31) change the index register. -/
def Obligations.IndexChangedOnlyByItsThreeInstructions : Prop :=
  ∀ (i : Instr) (s : State), ∃ t, exec i s = .next t ∧ (i.row ∉ [20, 30, 31] → t.iReg = s.iReg)

/-- Only RET and CALL (rows 2, 4) change `SP`; only CALL changes the stack. -/
def Obligations.StackChangedOnlyByCallAndRet : Prop :=
  ∀ (i : Instr) (s : State), ∃ t, exec i s = .next t ∧ (i.row ∉ [2, 4] → t.sp = s.sp) ∧
    (i.row ≠ 4 → t.stack = s.stack)

/-- Only LD B and LD [I] (rows 32, 33) store: under every other instruction every byte of memory reads as before. -/
def Obligations.MemoryStoredOnlyByTwoInstructions : Prop :=
  ∀ (i : Instr) (s : State), ∃ t, exec i s = .next t ∧ (i.row ∉ [32, 33] → memSame s t)

/-- R200: only CLS and DRW (rows 1, 23) change the display, and only DRW reads it: under every other instruction a
different display makes no difference to anything else. For RND the two runs agree because equal counters give equal
bytes, which is the model's choice (log 2). -/
def Obligations.DisplayChangedByClsAndDrwReadByDrwOnly : Prop :=
  ∀ (i : Instr) (s : State) (d : Display), ∃ t, exec i s = .next t ∧ (i.row ∉ [1, 23] → t.disp = s.disp) ∧
    (i.row ≠ 23 → ∃ d', exec i { s with disp := d } = .next { t with disp := d' })

/-- No instruction writes the error latch, the key masks or the draw flag, and a timer is written by its own store
instruction (rows 28, 29) only. -/
def Obligations.LatchKeysAndTimersAreNotWrittenByOtherInstructions : Prop :=
  ∀ (i : Instr) (s : State), ∃ t, exec i s = .next t ∧ t.halted = s.halted ∧ t.errOpcode = s.errOpcode ∧
    t.errPc = s.errPc ∧ t.keysCur = s.keysCur ∧ t.keysPrev = s.keysPrev ∧ t.drawFlag = s.drawFlag ∧
    (i.row ≠ 28 → t.dt = s.dt) ∧ (i.row ≠ 29 → t.st = s.st)

/-- No instruction reads `ST`, the draw flag or the error latch: other values there change nothing else (R26, R29, R30).
For RND the two runs agree because equal counters give equal bytes, which is the model's choice (log 2). -/
def Obligations.SoundTimerDrawFlagAndLatchAreNotRead : Prop :=
  ∀ (i : Instr) (s : State) (st : Byte) (draw halted : Bool) (errOpcode errPc : Word), ∃ t u, exec i s = .next t ∧
    exec i { s with st := st, drawFlag := draw, halted := halted, errOpcode := errOpcode, errPc := errPc } = .next u ∧
    t = { u with st := t.st, drawFlag := t.drawFlag, halted := t.halted, errOpcode := t.errOpcode, errPc := t.errPc }

/-- `KEYS_PREV` is read by LD Vx, K (row 27) only (R28, R34). For RND the two runs agree because equal counters give
equal bytes, which is the model's choice (log 2). -/
def Obligations.PreviousKeysReadByKeyWaitOnly : Prop :=
  ∀ (i : Instr) (s : State) (prev : Word), i.row ≠ 27 → ∃ t, exec i s = .next t ∧
    exec i { s with keysPrev := prev } = .next { t with keysPrev := prev }

/-- R173: "One RND makes exactly one draw; no other instruction makes any", and none but RND depends on the draws (R130).
The counter `draws` is the model's choice (logs 1 and 2). -/
def Obligations.OneDrawPerRndAndNoOther : Prop :=
  ∀ (i : Instr) (s : State) (d : Nat), ∃ t, exec i s = .next t ∧ t.draws = (if i.row = 22 then s.draws + 1 else s.draws) ∧
    (i.row ≠ 22 → exec i { s with draws := d } = .next { t with draws := d })

/-! ## Invariants -/

/-- From every state with a canonical memory (log 10: the form is the model's choice) and a truthful error latch, a Step
gives such a state. -/
def Obligations.StepKeepsTheInvariant : Prop :=
  ∀ s : State, Inv s → ∃ t, step s = .next t ∧ Inv t

/-- The state after reset meets the invariant. -/
def Obligations.ResetMeetsTheInvariant : Prop := Inv State.reset

/-- Every request of the Host Shell, in any number and order, keeps the invariant. -/
def Obligations.EveryRunOfRequestsKeepsTheInvariant : Prop :=
  ∀ (rs : List Request) (s : State), Inv s → ∃ t, serveAll rs s = .next t ∧ Inv t

/-! ## Control flow -/

/-- R140 and R149: the jumps write `pc` only; JP V0 keeps the full sum. -/
def Obligations.JumpsSetTheProgramCounter : Prop :=
  ∀ (nnn : Addr) (s : State),
    (∃ t, exec (.jp nnn) s = .next t ∧ t.pc.toNat = nnn.toNat ∧ t = { s with pc := t.pc } ∧ memSame s t) ∧
    (∃ t, exec (.jpV0 nnn) s = .next t ∧ t.pc.toNat = nnn.toNat + (s.readV 0).toNat ∧ t = { s with pc := t.pc } ∧
      memSame s t)

/-- R142: CALL stores the advanced `pc` in the slot `SP` names, steps `SP` modulo 16, and jumps. -/
def Obligations.CallPushesTheReturnAddress : Prop :=
  ∀ (nnn : Addr) (s : State), ∃ t, exec (.call nnn) s = .next t ∧ t.stack[s.sp.toNat]? = some s.pc ∧
    (∀ j, j ≠ s.sp.toNat → t.stack[j]? = s.stack[j]?) ∧ t.sp.toNat = (s.sp.toNat + 1) % 16 ∧ t.pc.toNat = nnn.toNat ∧
    t = { s with pc := t.pc, sp := t.sp, stack := t.stack } ∧ memSame s t

/-- R141: RET steps `SP` back modulo 16 and loads `pc` from that slot, which keeps its content. -/
def Obligations.RetPopsTheReturnAddress : Prop :=
  ∀ (ign : Nibble) (s : State), ∃ t, exec (.ret ign) s = .next t ∧ t.sp.toNat = (s.sp.toNat + 15) % 16 ∧
    s.stack[t.sp.toNat]? = some t.pc ∧ t = { s with pc := t.pc, sp := t.sp } ∧ memSame s t

/-- R143: from any stack, after any number of calls, up to 16 returns come back in reverse order: the 16 most recent
return addresses survive, and up to depth 16 the stack is last in, first out. -/
def Obligations.SixteenMostRecentReturnAddressesSurvive : Prop :=
  ∀ (s : State) (calls : List (Word × Addr)) (n : Nat), n ≤ calls.length → n ≤ 16 → ∃ t, callsInRow calls s = .next t ∧
    returnsInRow n t = some ((calls.reverse.map Prod.fst).take n)

/-- R144 to R147, R221, R222: the six skips add 2 to `pc`, which is already past the instruction, when their condition
holds, and change nothing else. -/
def Obligations.SkipsAddTwoWhenTheirConditionHolds : Prop :=
  ∀ (x y : Reg) (nn : Byte) (ign : Nibble) (s : State),
    exec (.seImm x nn) s = .next { s with pc := if (s.readV x).toNat = nn.toNat then s.pc + 2 else s.pc } ∧
    exec (.sneImm x nn) s = .next { s with pc := if (s.readV x).toNat = nn.toNat then s.pc else s.pc + 2 } ∧
    exec (.seReg x y ign) s = .next { s with pc := if (s.readV x).toNat = (s.readV y).toNat then s.pc + 2 else s.pc } ∧
    exec (.sneReg x y ign) s = .next { s with pc := if (s.readV x).toNat = (s.readV y).toNat then s.pc else s.pc + 2 } ∧
    exec (.skp x) s = .next
      { s with pc := if s.keysCur.getLsbD ((s.readV x).toNat % 16) = true then s.pc + 2 else s.pc } ∧
    exec (.sknp x) s = .next
      { s with pc := if s.keysCur.getLsbD ((s.readV x).toNat % 16) = true then s.pc else s.pc + 2 }

/-! ## Registers and ALU -/

/-- R161 to R165, R171: the loads, the add without flag and the logic write `V[X]` only; `VF` is touched only as `V[X]`. -/
def Obligations.LoadsAndLogicWriteTheirRegisterOnly : Prop :=
  ∀ (x y : Reg) (nn : Byte) (s : State),
    (∃ t, exec (.ldImm x nn) s = .next t ∧ writesOnly s t x nn) ∧
    (∃ t, exec (.addImm x nn) s = .next t ∧ writesOnly s t x (BitVec.ofNat 8 (((s.readV x).toNat + nn.toNat) % 256))) ∧
    (∃ t, exec (.ldReg x y) s = .next t ∧ writesOnly s t x (s.readV y)) ∧
    (∃ t, exec (.orReg x y) s = .next t ∧ writesOnly s t x (s.readV x ||| s.readV y)) ∧
    (∃ t, exec (.andReg x y) s = .next t ∧ writesOnly s t x (s.readV x &&& s.readV y)) ∧
    (∃ t, exec (.xorReg x y) s = .next t ∧ writesOnly s t x (s.readV x ^^^ s.readV y))

/-- R166, R167, R169: sum and carry, difference and no-borrow, with the old values of both registers; with `X = 15` the
flag wins (R160). -/
def Obligations.AddAndSubtractWriteResultThenFlag : Prop :=
  ∀ (x y : Reg) (s : State) (a b : Nat), a = (s.readV x).toNat → b = (s.readV y).toNat →
    (∃ t, exec (.addReg x y) s = .next t ∧
      writesResultFlagOnly s t x (BitVec.ofNat 8 ((a + b) % 256)) (if 255 < a + b then 1 else 0)) ∧
    (∃ t, exec (.sub x y) s = .next t ∧
      writesResultFlagOnly s t x (BitVec.ofNat 8 ((256 + a - b) % 256)) (if b ≤ a then 1 else 0)) ∧
    (∃ t, exec (.subn x y) s = .next t ∧
      writesResultFlagOnly s t x (BitVec.ofNat 8 ((256 + b - a) % 256)) (if a ≤ b then 1 else 0))

/-- R168, R170: the shifts by one and the bit shifted out, under each value of `SHIFT_SOURCE`; this hardware takes VX. -/
def Obligations.ShiftsWriteResultThenTheBitShiftedOut : Prop :=
  ∀ (x y : Reg) (s : State),
    (∀ (source : ShiftSource) (a : Nat), a = (match source with | .vx => (s.readV x).toNat | .vy => (s.readV y).toNat) →
      writesResultFlagOnly s (s.shiftRight source x y) x (BitVec.ofNat 8 (a / 2)) (BitVec.ofNat 8 (a % 2)) ∧
      writesResultFlagOnly s (s.shiftLeft source x y) x (BitVec.ofNat 8 (2 * a % 256)) (BitVec.ofNat 8 (a / 128))) ∧
    exec (.shr x y) s = .next (s.shiftRight .vx x y) ∧ exec (.shl x y) s = .next (s.shiftLeft .vx x y)

/-- R172: RND writes a free byte masked by `NN`, whatever the byte is; no bit outside `NN` is ever set. The counter
`draws` is the model's choice (logs 1 and 2). -/
def Obligations.RndMasksAFreeByte : Prop :=
  ∀ (x : Reg) (nn : Byte) (s : State), ∃ t, exec (.rnd x nn) s = .next t ∧
    t.readV x = Config.randomByte s.draws &&& nn ∧ t.readV x &&& ~~~nn = 0 ∧ t.draws = s.draws + 1 ∧
    (∀ r, r ≠ x → t.readV r = s.readV r) ∧ t = { s with v := t.v, draws := t.draws } ∧ memSame s t

/-! ## Index register and memory -/

/-- R181, R182, R183: LD I, ADD I and LD F write `I` only, with no flag. -/
def Obligations.IndexInstructionsWriteTheIndexOnly : Prop :=
  ∀ (nnn : Addr) (x : Reg) (s : State),
    (∃ t, exec (.ldI nnn) s = .next t ∧ t.iReg.toNat = nnn.toNat ∧ t = { s with iReg := t.iReg } ∧ memSame s t) ∧
    (∃ t, exec (.addI x) s = .next t ∧ t.iReg.toNat = (s.iReg.toNat + (s.readV x).toNat) % 65536 ∧
      t = { s with iReg := t.iReg } ∧ memSame s t) ∧
    (∃ t, exec (.ldF x) s = .next t ∧ t.iReg.toNat = 5 * (s.readV x).toNat ∧ t = { s with iReg := t.iReg } ∧
      memSame s t)

/-- R184: LD B stores the three decimal digits at `I`, `I + 1`, `I + 2`, wrapping, and nothing else. -/
def Obligations.LdBStoresThreeDecimalDigits : Prop :=
  ∀ (x : Reg) (s : State), ∃ t, exec (.ldB x) s = .next t ∧
    (t.mem.read (s.dataAddr 0)).toNat = (s.readV x).toNat / 100 ∧
    (t.mem.read (s.dataAddr 1)).toNat = (s.readV x).toNat / 10 % 10 ∧
    (t.mem.read (s.dataAddr 2)).toNat = (s.readV x).toNat % 10 ∧ memSameOutside 3 s t ∧ t = { s with mem := t.mem }

/-- R186: LD [I], Vx stores `V[0]` to `V[X]` at `I` to `I + X`, wrapping, and nothing else. -/
def Obligations.BlockStoreWritesRegistersToMemory : Prop :=
  ∀ (x : Reg) (s : State), ∃ t, exec (.stRegs x) s = .next t ∧
    (∀ r : Reg, r.toNat ≤ x.toNat → t.mem.read (s.dataAddr r.toNat) = s.readV r) ∧
    memSameOutside (x.toNat + 1) s t ∧ t = { s with mem := t.mem }

/-- R187: LD Vx, [I] loads `V[0]` to `V[X]` from `I` to `I + X`, wrapping, and nothing else. -/
def Obligations.BlockLoadReadsRegistersFromMemory : Prop :=
  ∀ (x : Reg) (s : State), ∃ t, exec (.ldRegs x) s = .next t ∧
    (∀ r : Reg, t.readV r = if r.toNat ≤ x.toNat then s.mem.read (s.dataAddr r.toNat) else s.readV r) ∧
    t = { s with v := t.v } ∧ memSame s t

/-- R188: storing `V[0..X]` and loading them back gives the stored values, for every `X` and `I`, whatever the registers
hold in between. -/
def Obligations.BlockStoreThenLoadRestoresRegisters : Prop :=
  ∀ (x : Reg) (s : State) (between : Vector Byte 16), ∃ t u, exec (.stRegs x) s = .next t ∧
    exec (.ldRegs x) { t with v := between } = .next u ∧ ∀ r : Reg, r.toNat ≤ x.toNat → u.readV r = s.readV r

/-- R65 and R75: two bytes stored by LD [I] are fetched straight after as one big-endian word, high byte from `V[0]`. -/
def Obligations.StoredWordIsFetchedBigEndian : Prop :=
  ∀ (x : Reg) (s : State), 1 ≤ x.toNat → ∃ t, exec (.stRegs x) s = .next t ∧
    { t with pc := s.iReg }.fetchWord.toNat = (s.readV 0).toNat * 256 + (s.readV 1).toNat

/-! ## Display -/

/-- R201: CLS turns every cell off and touches nothing else, `VF` included; "Clear-screen followed by any draw produces
a display state depending only on that draw": two displays that differ before give the same state and no collision. -/
def Obligations.ClsTurnsEveryCellOff : Prop :=
  ∀ (ign : Nibble) (s : State), ∃ t, exec (.cls ign) s = .next t ∧ (∀ x < 64, ∀ y < 32, t.disp.cell x y = false) ∧
    t = { s with disp := t.disp } ∧ memSame s t ∧
    ∀ (x y : Reg) (n : Nibble) (d : Display), ∃ u u', exec (.drw x y n) t = .next u ∧ u.readV 15 = 0 ∧
      exec (.cls ign) { s with disp := d } = .next u' ∧ exec (.drw x y n) u' = .next u

/-- R202, R203, R204: every cell of the display is XORed with the sprite's bit there, clipped at the edges; `VF` ends as 1
exactly when a drawn cell was on, else 0; the coordinates are read after `VF` is cleared. -/
def Obligations.DrwXorsEachCellAndReportsCollision : Prop :=
  ∀ (x y : Reg) (n : Nibble) (s : State) (x0 y0 : Nat),
    x0 = (if x = 15 then 0 else (s.readV x).toNat % 64) → y0 = (if y = 15 then 0 else (s.readV y).toNat % 32) →
    ∃ t, exec (.drw x y n) s = .next t ∧
      (∀ cx < 64, ∀ cy < 32, t.disp.cell cx cy =
        (s.disp.cell cx cy ^^ spriteBit s.mem (s.dataAddr 0) x0 y0 n.toNat cx cy)) ∧
      (t.readV 15 = 0 ∨ t.readV 15 = 1) ∧
      (t.readV 15 = 1 ↔ ∃ cx < 64, ∃ cy < 32,
        spriteBit s.mem (s.dataAddr 0) x0 y0 n.toNat cx cy = true ∧ s.disp.cell cx cy = true) ∧
      (∀ r, r ≠ 15 → t.readV r = s.readV r) ∧ t = { s with v := t.v, disp := t.disp } ∧ memSame s t

/-- R205: a draw is its own inverse on the display, and the second draw collides exactly when the first turned a cell
on. -/
def Obligations.DrawingTwiceRestoresTheDisplay : Prop :=
  ∀ (x y : Reg) (n : Nibble) (s : State), ∃ t u, exec (.drw x y n) s = .next t ∧ exec (.drw x y n) t = .next u ∧
    u.disp = s.disp ∧
    (u.readV 15 = 1 ↔ ∃ cx < 64, ∃ cy < 32, s.disp.cell cx cy = false ∧ t.disp.cell cx cy = true)

/-! ## Timers and keys -/

/-- R223, R224, R225: the timer moves, and nothing else. -/
def Obligations.TimerInstructionsMoveTheTimers : Prop :=
  ∀ (x : Reg) (s : State),
    (∃ t, exec (.ldVxDt x) s = .next t ∧ writesOnly s t x s.dt) ∧
    (∃ t, exec (.ldDtVx x) s = .next t ∧ t.dt = s.readV x ∧ t = { s with dt := t.dt } ∧ memSame s t) ∧
    (∃ t, exec (.ldStVx x) s = .next t ∧ t.st = s.readV x ∧ t = { s with st := t.st } ∧ memSame s t)

/-- R227: with no release edge LD Vx, K goes back to itself and changes nothing else; otherwise the least released key
goes to `V[X]`. -/
def Obligations.KeyWaitTakesTheLeastReleasedKey : Prop :=
  ∀ (x : Reg) (s : State),
    ((∀ k < 16, ¬(s.keysPrev.getLsbD k = true ∧ s.keysCur.getLsbD k = false)) →
      exec (.ldVxK x) s = .next { s with pc := s.pc - 2 }) ∧
    (∀ k < 16, s.keysPrev.getLsbD k = true → s.keysCur.getLsbD k = false →
      (∀ j < k, ¬(s.keysPrev.getLsbD j = true ∧ s.keysCur.getLsbD j = false)) →
      ∃ t, exec (.ldVxK x) s = .next t ∧ writesOnly s t x (BitVec.ofNat 8 k))

/-- R228: "given no release edge, the program counter does not advance past the instruction across repeated steps": for
any number of Steps, nothing changes but the draw flag and the snapshot. -/
def Obligations.KeyWaitHoldsAcrossRepeatedSteps : Prop :=
  ∀ (n : Nat) (x : Reg) (s : State), s.halted = false → decode s.fetchWord = .instr (.ldVxK x) →
    s.keysPrev &&& ~~~s.keysCur = 0 →
    serveAll (List.replicate (n + 1) .step) s = .next { s with drawFlag := false, keysPrev := s.keysCur }

/-- R228: one release edge, of key `k`: exactly one Step resolves the instruction and stores `k`. -/
def Obligations.OneReleaseEdgeResolvesTheKeyWait : Prop :=
  ∀ (k : Nat) (x : Reg) (s : State), k < 16 → s.halted = false → decode s.fetchWord = .instr (.ldVxK x) →
    (∀ j < 16, (s.keysPrev.getLsbD j = true ∧ s.keysCur.getLsbD j = false) ↔ j = k) →
    ∃ t, step s = .next t ∧ (t.readV x).toNat = k ∧ t.pc = s.pc + 2

/-! ## The Host Shell's requests -/

/-- R280: each Tick lowers a timer that is not 0 by one and changes nothing else; `n` Ticks lower it by `n`, never below
zero. -/
def Obligations.TicksCountTheTimersDownToZero : Prop :=
  ∀ (n : Nat) (s : State), ∃ t, serveAll (List.replicate n .tick) s = .next t ∧ t.dt.toNat = s.dt.toNat - n ∧
    t.st.toNat = s.st.toNat - n ∧ t = { s with dt := t.dt, st := t.st } ∧ memSame s t

/-- R245, R246: SetKeys replaces the whole mask and nothing else, halted or not, and GetKeys reads it back. -/
def Obligations.SetKeysReplacesTheMask : Prop :=
  ∀ (mask : Word) (s : State), ∃ t, serve (.setKeys mask) s = .next t ∧ t.getKeys = mask ∧
    t = { s with keysCur := t.keysCur } ∧ memSame s t

/-- R247: Load puts the first 3584 bytes of the ROM at 0x200 up, drops the rest, and changes nothing else. -/
def Obligations.LoadPlacesTheRomAndTruncates : Prop :=
  ∀ (rom : List Byte) (s : State), ∃ t, serve (.load rom) s = .next t ∧
    (∀ (i : Nat) (b : Byte), i < 3584 → rom[i]? = some b → t.mem.read (0x200 + i) = b) ∧
    (∀ a < 4096, a < 0x200 ∨ 0x200 + rom.length ≤ a → t.mem.read a = s.mem.read a) ∧ t = { s with mem := t.mem }

/-- R300: Reset sets every piece of state of R36, whatever it held and whatever rate it is given. -/
def Obligations.ResetSetsEveryPieceOfState : Prop :=
  ∀ (rate : Nat) (s : State), ∃ t, serve (.reset rate) s = .next t ∧ (∀ r, t.readV r = 0) ∧ t.iReg = 0 ∧
    t.pc = 0x200 ∧ t.sp = 0 ∧ (∀ j < 16, t.stack[j]? = some 0) ∧ t.dt = 0 ∧ t.st = 0 ∧
    (∀ a < 80, hardware.font a = some (t.mem.read a)) ∧ (∀ a < 4096, 80 ≤ a → t.mem.read a = 0) ∧
    (∀ x < 64, ∀ y < 32, t.disp.cell x y = false) ∧ t.keysCur = 0 ∧ t.keysPrev = 0 ∧ t.drawFlag = false ∧
    t.halted = false ∧ t.errOpcode = 0 ∧ t.errPc = 0

/-- R303: right after Reset, with no ROM, the first Step halts the core on the word 0x0000 at 0x200. -/
def Obligations.FirstStepAfterResetHaltsWithNoRom : Prop :=
  ∀ (rate : Nat) (s : State), ∃ t, serveAll [.reset rate, .step] s = .next t ∧ t.halted = true ∧ t.errOpcode = 0 ∧
    t.errPc = 0x200 ∧ t.pc = 0x202

/-- R275, R121: no request but Reset ends the halt or lets an instruction run: only memory (Load), `KEYS_CUR` and the
timers can change. -/
def Obligations.OnlyResetEndsTheHalt : Prop :=
  ∀ (rs : List Request) (s : State), s.halted = true → (∀ rate, Request.reset rate ∉ rs) →
    ∃ t, serveAll rs s = .next t ∧ t.halted = true ∧ t.stepResult = .decodeError s.errOpcode ∧
      t = { s with mem := t.mem, keysCur := t.keysCur, dt := t.dt, st := t.st }

/-- R240, R274: at one moment a Reset cancels the rest. Without one, whichever of Load, SetKeys, Step and Tick are made:
the SetKeys falls after the Load, the Step sees both, and the Tick falls after the Step. -/
def Obligations.SimultaneousRequestsHaveAFixedOrder : Prop :=
  ∀ (m : Moment) (s : State),
    (∀ rate, m.reset = some rate → serveMoment m s = serve (.reset rate) s) ∧
    (m.reset = none → ∃ loaded keyed stepped, loaded = m.load.elim s s.load ∧
      keyed = m.setKeys.elim loaded loaded.setKeys ∧
      (if m.step = true then step keyed = .next stepped else stepped = keyed) ∧
      serveMoment m s = .next (if m.tick = true then stepped.tick else stepped))
end

