-- ==== Sys2Proof/Laws/Decode.lean ====
section
/-! SUPPORT. Words and their fields as numbers, and the fields of an encoded word, format by format (`30_encoding.md`
R91, R92). -/

namespace Sys2Proof

/-- Concatenation as a number: the high part times a power of two (R9). -/
theorem toNat_append_eq {m n : Nat} (a : BitVec m) (b : BitVec n) : (a ++ b).toNat = a.toNat * 2 ^ n + b.toNat := by
  rw [BitVec.toNat_append, ← Nat.shiftLeft_add_eq_or_of_lt b.isLt, Nat.shiftLeft_eq]

/-! ## Encoded words as numbers -/

theorem encodeXI_toNat (g x : Nibble) (nn : Byte) :
    (encodeXI g x nn).toNat = g.toNat * 4096 + x.toNat * 256 + nn.toNat := by
  have h : (encodeXI g x nn).toNat = (g ++ x).toNat * 2 ^ 8 + nn.toNat := toNat_append_eq (g ++ x) nn
  rw [h, toNat_append_eq g x]
  ring

theorem encodeA_toNat (g : Nibble) (nnn : Addr) : (encodeA g nnn).toNat = g.toNat * 4096 + nnn.toNat :=
  toNat_append_eq g nnn

theorem encodeXYN_toNat (g x y n : Nibble) :
    (encodeXYN g x y n).toNat = g.toNat * 4096 + x.toNat * 256 + y.toNat * 16 + n.toNat := by
  have h : (encodeXYN g x y n).toNat = (g ++ x ++ y).toNat * 2 ^ 4 + n.toNat := toNat_append_eq (g ++ x ++ y) n
  rw [h, toNat_append_eq (g ++ x) y, toNat_append_eq g x]
  ring

/-! ## Fields as numbers -/

theorem fieldG_toNat (op : Word) : (fieldG op).toNat = op.toNat / 4096 := by
  have := op.isLt
  simp only [fieldG, BitVec.extractLsb'_toNat, Nat.shiftRight_eq_div_pow]
  omega

theorem fieldX_toNat (op : Word) : (fieldX op).toNat = op.toNat / 256 % 16 := by
  simp [fieldX, Nat.shiftRight_eq_div_pow]

theorem fieldY_toNat (op : Word) : (fieldY op).toNat = op.toNat / 16 % 16 := by
  simp [fieldY, Nat.shiftRight_eq_div_pow]

theorem fieldN_toNat (op : Word) : (fieldN op).toNat = op.toNat % 16 := by simp [fieldN]

theorem fieldNN_toNat (op : Word) : (fieldNN op).toNat = op.toNat % 256 := by simp [fieldNN]

theorem fieldNNN_toNat (op : Word) : (fieldNNN op).toNat = op.toNat % 4096 := by simp [fieldNNN]

/-! ## Fields of a word in each format -/

@[simp] theorem fieldG_encodeXI (g x : Nibble) (nn : Byte) : fieldG (encodeXI g x nn) = g := by
  apply BitVec.eq_of_toNat_eq; rw [fieldG_toNat, encodeXI_toNat]; omega
@[simp] theorem fieldX_encodeXI (g x : Nibble) (nn : Byte) : fieldX (encodeXI g x nn) = x := by
  apply BitVec.eq_of_toNat_eq; rw [fieldX_toNat, encodeXI_toNat]; omega
@[simp] theorem fieldNN_encodeXI (g x : Nibble) (nn : Byte) : fieldNN (encodeXI g x nn) = nn := by
  apply BitVec.eq_of_toNat_eq; rw [fieldNN_toNat, encodeXI_toNat]; omega

@[simp] theorem fieldG_encodeA (g : Nibble) (nnn : Addr) : fieldG (encodeA g nnn) = g := by
  apply BitVec.eq_of_toNat_eq; rw [fieldG_toNat, encodeA_toNat]; omega
@[simp] theorem fieldNNN_encodeA (g : Nibble) (nnn : Addr) : fieldNNN (encodeA g nnn) = nnn := by
  apply BitVec.eq_of_toNat_eq; rw [fieldNNN_toNat, encodeA_toNat]; omega

@[simp] theorem fieldG_encodeXYN (g x y n : Nibble) : fieldG (encodeXYN g x y n) = g := by
  apply BitVec.eq_of_toNat_eq; rw [fieldG_toNat, encodeXYN_toNat]; omega
@[simp] theorem fieldX_encodeXYN (g x y n : Nibble) : fieldX (encodeXYN g x y n) = x := by
  apply BitVec.eq_of_toNat_eq; rw [fieldX_toNat, encodeXYN_toNat]; omega
@[simp] theorem fieldY_encodeXYN (g x y n : Nibble) : fieldY (encodeXYN g x y n) = y := by
  apply BitVec.eq_of_toNat_eq; rw [fieldY_toNat, encodeXYN_toNat]; omega
@[simp] theorem fieldN_encodeXYN (g x y n : Nibble) : fieldN (encodeXYN g x y n) = n := by
  apply BitVec.eq_of_toNat_eq; rw [fieldN_toNat, encodeXYN_toNat]; omega

/-! ## A word is its fields -/

theorem encodeXI_fields (op : Word) : encodeXI (fieldG op) (fieldX op) (fieldNN op) = op := by
  apply BitVec.eq_of_toNat_eq; rw [encodeXI_toNat, fieldG_toNat, fieldX_toNat, fieldNN_toNat]; omega

theorem encodeA_fields (op : Word) : encodeA (fieldG op) (fieldNNN op) = op := by
  apply BitVec.eq_of_toNat_eq; rw [encodeA_toNat, fieldG_toNat, fieldNNN_toNat]; omega

theorem encodeXYN_fields (op : Word) : encodeXYN (fieldG op) (fieldX op) (fieldY op) (fieldN op) = op := by
  apply BitVec.eq_of_toNat_eq
  rw [encodeXYN_toNat, fieldG_toNat, fieldX_toNat, fieldY_toNat, fieldN_toNat]; omega

/-! ## A word under the masks of the opcode map (R95) -/

theorem getLsbD_encodeXI (g x : Nibble) (nn : Byte) (i : Nat) : (encodeXI g x nn).getLsbD i =
    if i < 8 then nn.getLsbD i else if i - 8 < 4 then x.getLsbD (i - 8) else g.getLsbD (i - 8 - 4) := by
  have h : (encodeXI g x nn).getLsbD i = BitVec.getLsbD (g ++ x ++ nn) i := rfl
  rw [h, BitVec.getLsbD_append, BitVec.getLsbD_append]

theorem getLsbD_encodeXYN (g x y n : Nibble) (i : Nat) : (encodeXYN g x y n).getLsbD i =
    if i < 4 then n.getLsbD i else if i - 4 < 4 then y.getLsbD (i - 4)
    else if i - 4 - 4 < 4 then x.getLsbD (i - 4 - 4) else g.getLsbD (i - 4 - 4 - 4) := by
  have h : (encodeXYN g x y n).getLsbD i = BitVec.getLsbD (g ++ x ++ y ++ n) i := rfl
  rw [h, BitVec.getLsbD_append, BitVec.getLsbD_append, BitVec.getLsbD_append]

theorem and_F000 (op : Word) : op &&& 0xF000 = encodeXI (fieldG op) 0 0 := by
  refine BitVec.eq_of_getLsbD_eq fun i hi => ?_
  rw [getLsbD_encodeXI]
  interval_cases i <;> simp [fieldG]

theorem and_F0FF (op : Word) : op &&& 0xF0FF = encodeXI (fieldG op) 0 (fieldNN op) := by
  refine BitVec.eq_of_getLsbD_eq fun i hi => ?_
  rw [getLsbD_encodeXI]
  interval_cases i <;> simp [fieldG, fieldNN]

theorem and_F00F (op : Word) : op &&& 0xF00F = encodeXYN (fieldG op) 0 0 (fieldN op) := by
  refine BitVec.eq_of_getLsbD_eq fun i hi => ?_
  rw [getLsbD_encodeXYN]
  interval_cases i <;> simp [fieldG, fieldN]

/-! ## The bytes of a word -/

theorem wordOfBytes_toNat (hi lo : Byte) : (wordOfBytes hi lo).toNat = hi.toNat * 256 + lo.toNat :=
  toNat_append_eq hi lo

theorem wordOfBytes_bytes (op : Word) : wordOfBytes (op.extractLsb' 8 8) (op.extractLsb' 0 8) = op := by
  apply BitVec.eq_of_toNat_eq
  have := op.isLt
  simp only [wordOfBytes_toNat, BitVec.extractLsb'_toNat, Nat.shiftRight_eq_div_pow]
  omega

/-! ## The host's question -/

/-- The decoder on a table row's word is the decoder on that word. -/
theorem decodeTableWord_eq (nbits w : Nat) : decodeTableWord nbits w = (decode (tableWord nbits w)).toOption := by
  simp only [decodeTableWord, bytesOfWord, decodeBytes, wordOfBytes_bytes]
  cases decode (tableWord nbits w) <;> rfl

end Sys2Proof
end

