-- ==== Sys2Proof/Laws/Memory.lean ====
section
/-! SUPPORT. The laws of memory: a read sees the latest write to its address and no other (R60, R62, R69), and every
operation keeps the canonical form. -/

namespace Sys2Proof.Machine

/-! ## The byte at an address -/

theorem Memory.byteAt_insertCell (c : Host.Cell) (m : Memory) (a : Nat) (hc : ∀ d ∈ m, d.1 ≠ c.1) :
    Memory.byteAt (Memory.insertCell c m) a = if c.1 = a then c.2 else Memory.byteAt m a := by
  induction m with
  | nil => rfl
  | cons d m ih =>
    have ih := ih fun e he => hc e (List.mem_cons_of_mem _ he)
    have hd := hc d List.mem_cons_self
    rw [Memory.insertCell]
    split
    · rfl
    · rw [Memory.byteAt, ih, Memory.byteAt]
      split <;> split <;> simp_all

theorem Memory.byteAt_filter_of_ne (m : Memory) {a k : Nat} (h : a ≠ k) :
    Memory.byteAt (m.filter fun c => c.1 != k) a = Memory.byteAt m a := by
  induction m with
  | nil => rfl
  | cons d m ih =>
    by_cases hd : d.1 = k
    · have : d.1 ≠ a := fun e => h (e ▸ hd)
      simp [hd, Memory.byteAt, ih, h.symm]
    · simp [hd, Memory.byteAt, ih]

theorem Memory.byteAt_filter_same (m : Memory) (k : Nat) :
    Memory.byteAt (m.filter fun c => c.1 != k) k = resetByte k := by
  induction m with
  | nil => rfl
  | cons d m ih => by_cases hd : d.1 = k <;> simp [hd, Memory.byteAt, ih]

/-- Everything `setByte` does, on any list of cells. -/
theorem Memory.byteAt_setByte (m : Memory) (k : Nat) (b : Byte) (a : Nat) :
    Memory.byteAt (Memory.setByte m k b) a = if k = a then b else Memory.byteAt m a := by
  have hc : ∀ d ∈ m.filter (fun c => c.1 != k), d.1 ≠ k := by simp
  unfold Memory.setByte
  by_cases h : k = a
  · subst h
    split
    · rename_i hb; simp [Memory.byteAt_filter_same, hb]
    · rw [Memory.byteAt_insertCell _ _ _ hc]; simp
  · rw [if_neg h]
    split
    · exact Memory.byteAt_filter_of_ne m (Ne.symm h)
    · rw [Memory.byteAt_insertCell _ _ _ hc, if_neg h]; exact Memory.byteAt_filter_of_ne m (Ne.symm h)

/-! ## Reads and writes -/

/-- Every address wraps (R63). -/
theorem Memory.read_mod (m : Memory) (a : Nat) : m.read (a % memSize) = m.read a := by
  simp [Memory.read]

theorem Memory.write_mod (m : Memory) (a : Nat) (b : Byte) : m.write (a % memSize) b = m.write a b := by
  simp [Memory.write]

theorem Memory.read_congr (m : Memory) {a b : Nat} (h : a % memSize = b % memSize) : m.read a = m.read b := by
  simp [Memory.read, h]

/-- Everything a write does, as the reads after it see it (R60, R62). -/
theorem Memory.read_write (m : Memory) (k : Nat) (b : Byte) (a : Nat) :
    (m.write k b).read a = if k % memSize = a % memSize then b else m.read a :=
  Memory.byteAt_setByte m _ b _

@[simp] theorem Memory.read_write_same (m : Memory) (k : Nat) (b : Byte) : (m.write k b).read k = b := by
  simp [Memory.read_write]

theorem Memory.read_write_of_ne (m : Memory) (b : Byte) {k a : Nat} (h : k % memSize ≠ a % memSize) :
    (m.write k b).read a = m.read a := by simp [Memory.read_write, h]

/-- A write of consecutive bytes leaves every address outside them alone. -/
theorem Memory.read_writeBytes_outside (m : Memory) (k : Nat) (bs : List Byte) (a : Nat)
    (h : ∀ j < bs.length, (k + j) % memSize ≠ a % memSize) : (m.writeBytes k bs).read a = m.read a := by
  induction bs generalizing m k with
  | nil => rfl
  | cons b bs ih =>
    rw [Memory.writeBytes, ih]
    · exact Memory.read_write_of_ne m b (by simpa using h 0 (by simp))
    · intro j hj
      have := h (j + 1) (by simpa using hj)
      rwa [show k + 1 + j = k + (j + 1) by omega]

/-- Byte `j` of a write of at most 4096 consecutive bytes is read back at `k + j`. -/
theorem Memory.read_writeBytes_inside (m : Memory) (k : Nat) (bs : List Byte) (j : Nat) (b : Byte)
    (hb : bs[j]? = some b) (hlen : bs.length ≤ memSize) : (m.writeBytes k bs).read (k + j) = b := by
  induction bs generalizing m k j with
  | nil => simp at hb
  | cons c bs ih =>
    have hlen' : bs.length + 1 ≤ memSize := by simpa using hlen
    rw [Memory.writeBytes]
    cases j with
    | zero =>
      rw [Memory.read_writeBytes_outside]
      · simp at hb; simp [hb]
      · intro j hj
        have : bs.length < memSize := hlen'
        unfold memSize at *
        omega
    | succ j =>
      rw [show k + (j + 1) = k + 1 + j by omega]
      exact ih _ _ _ (by simpa using hb) (by omega)

/-! ## The canonical form -/

theorem Memory.mem_insertCell {c d : Host.Cell} {m : Memory} (h : d ∈ Memory.insertCell c m) : d = c ∨ d ∈ m := by
  induction m with
  | nil => exact .inl (by simpa [Memory.insertCell] using h)
  | cons e m ih =>
    rw [Memory.insertCell] at h
    split at h
    · simpa using h
    · rcases List.mem_cons.1 h with rfl | h
      · exact .inr List.mem_cons_self
      · exact (ih h).imp_right (List.mem_cons_of_mem _)

theorem Memory.sorted_insertCell (c : Host.Cell) (m : Memory) (hm : m.Pairwise fun c d => c.1 < d.1)
    (hc : ∀ d ∈ m, d.1 ≠ c.1) : (Memory.insertCell c m).Pairwise fun c d => c.1 < d.1 := by
  induction m with
  | nil => simp [Memory.insertCell]
  | cons d m ih =>
    obtain ⟨hd, hm'⟩ := List.pairwise_cons.1 hm
    have hne := hc d List.mem_cons_self
    rw [Memory.insertCell]
    split
    · refine List.pairwise_cons.2 ⟨fun e he => ?_, hm⟩
      rcases List.mem_cons.1 he with rfl | he
      · omega
      · have := hd e he; omega
    · refine List.pairwise_cons.2 ⟨fun e he => ?_, ih hm' fun e he => hc e (List.mem_cons_of_mem _ he)⟩
      rcases Memory.mem_insertCell he with rfl | he
      · omega
      · exact hd e he

theorem Memory.setByte_wf {m : Memory} (hm : m.wf) {a : Nat} (ha : a < memSize) (b : Byte) : (m.setByte a b).wf := by
  have hsub : ∀ d ∈ m.filter (fun c => c.1 != a), d ∈ m := fun d hd => (List.mem_filter.1 hd).1
  have hne : ∀ d ∈ m.filter (fun c => c.1 != a), d.1 ≠ a := by simp
  unfold Memory.setByte
  split
  · exact ⟨hm.1.filter _, fun d hd => hm.2 d (hsub d hd)⟩
  · rename_i hb
    refine ⟨Memory.sorted_insertCell _ _ (hm.1.filter _) hne, fun d hd => ?_⟩
    rcases Memory.mem_insertCell hd with rfl | hd
    · exact ⟨ha, hb⟩
    · exact hm.2 d (hsub d hd)

theorem Memory.write_wf {m : Memory} (hm : m.wf) (a : Nat) (b : Byte) : (m.write a b).wf :=
  Memory.setByte_wf hm (Nat.mod_lt _ (by decide)) b

theorem Memory.writeBytes_wf {m : Memory} (hm : m.wf) (a : Nat) (bs : List Byte) : (m.writeBytes a bs).wf := by
  induction bs generalizing m a with
  | nil => exact hm
  | cons b bs ih => exact ih (Memory.write_wf hm a b) (a + 1)

theorem Memory.nil_wf : Memory.wf [] := ⟨List.Pairwise.nil, fun _ h => absurd h List.not_mem_nil⟩

theorem State.store_wf {s : State} (h : s.mem.wf) (a : Nat) (b : Byte) : (s.store a b).mem.wf :=
  Memory.write_wf h a b

theorem Memory.byteAt_of_forall_ne {m : Memory} {a : Nat} (h : ∀ c ∈ m, c.1 ≠ a) : m.byteAt a = resetByte a := by
  induction m with
  | nil => rfl
  | cons c m ih =>
    rw [Memory.byteAt, if_neg (h c List.mem_cons_self)]
    exact ih fun d hd => h d (List.mem_cons_of_mem _ hd)

theorem Memory.byteAt_of_mem {m : Memory} (hm : m.wf) {c : Host.Cell} (hc : c ∈ m) : m.byteAt c.1 = c.2 := by
  induction m with
  | nil => simp at hc
  | cons d m ih =>
    obtain ⟨hd, hm'⟩ := List.pairwise_cons.1 hm.1
    rcases List.mem_cons.1 hc with rfl | hc
    · simp [Memory.byteAt]
    · rw [Memory.byteAt, if_neg (by have := hd c hc; omega)]
      exact ih ⟨hm', fun e he => hm.2 e (List.mem_cons_of_mem _ he)⟩ hc

/-- A cell is listed exactly when its address is in range and reads as its byte, which is not the reset contents. -/
theorem Memory.mem_iff_of_wf {m : Memory} (hm : m.wf) (c : Host.Cell) :
    c ∈ m ↔ c.1 < memSize ∧ c.2 ≠ resetByte c.1 ∧ m.byteAt c.1 = c.2 := by
  refine ⟨fun hc => ⟨(hm.2 c hc).1, (hm.2 c hc).2, Memory.byteAt_of_mem hm hc⟩, fun ⟨_, hne, hb⟩ => ?_⟩
  by_contra hc
  by_cases h : ∃ d ∈ m, d.1 = c.1
  · obtain ⟨d, hd, he⟩ := h
    have : d.2 = c.2 := by rw [← hb, ← he, Memory.byteAt_of_mem hm hd]
    exact hc (Prod.ext he this ▸ hd)
  · push Not at h
    exact hne (hb ▸ Memory.byteAt_of_forall_ne h)

/-- Two canonical memories that read alike at every address are the same list. -/
theorem Memory.eq_of_read_eq {m n : Memory} (hm : m.wf) (hn : n.wf) (h : ∀ a, m.read a = n.read a) : m = n := by
  have hb : ∀ a < memSize, m.byteAt a = n.byteAt a := fun a ha => by
    simpa [Memory.read, Nat.mod_eq_of_lt ha] using h a
  have hmem : ∀ c, c ∈ m ↔ c ∈ n := fun c => by
    rw [Memory.mem_iff_of_wf hm, Memory.mem_iff_of_wf hn]
    constructor <;> rintro ⟨h1, h2, h3⟩
    · exact ⟨h1, h2, by rw [← hb _ h1, h3]⟩
    · exact ⟨h1, h2, by rw [hb _ h1, h3]⟩
  have nodup : ∀ {l : Memory}, l.wf → l.Nodup := fun hl => hl.1.imp fun hlt he => by simp [he] at hlt
  refine List.Perm.eq_of_pairwise (fun a b _ _ h1 h2 => absurd h1 (by omega)) hm.1 hn.1 ?_
  exact (List.perm_ext_iff_of_nodup (nodup hm) (nodup hn)).2 hmem

end Sys2Proof.Machine
end

