-- ==== Sys2Proof/Laws/State.lean ====
section
/-! SUPPORT. One lemma per field per update of the state, true by rfl, so that no later proof unfolds a record update. -/

namespace Sys2Proof.Machine

variable (s : State)

/-! ### store -/

@[simp] theorem State.store_v (a : Nat) (b : Byte) : (s.store a b).v = s.v := rfl
@[simp] theorem State.store_iReg (a : Nat) (b : Byte) : (s.store a b).iReg = s.iReg := rfl
@[simp] theorem State.store_pc (a : Nat) (b : Byte) : (s.store a b).pc = s.pc := rfl
@[simp] theorem State.store_sp (a : Nat) (b : Byte) : (s.store a b).sp = s.sp := rfl
@[simp] theorem State.store_stack (a : Nat) (b : Byte) : (s.store a b).stack = s.stack := rfl
@[simp] theorem State.store_dt (a : Nat) (b : Byte) : (s.store a b).dt = s.dt := rfl
@[simp] theorem State.store_st (a : Nat) (b : Byte) : (s.store a b).st = s.st := rfl
@[simp] theorem State.store_mem (a : Nat) (b : Byte) : (s.store a b).mem = s.mem.write a b := rfl
@[simp] theorem State.store_disp (a : Nat) (b : Byte) : (s.store a b).disp = s.disp := rfl
@[simp] theorem State.store_keysCur (a : Nat) (b : Byte) : (s.store a b).keysCur = s.keysCur := rfl
@[simp] theorem State.store_keysPrev (a : Nat) (b : Byte) : (s.store a b).keysPrev = s.keysPrev := rfl
@[simp] theorem State.store_drawFlag (a : Nat) (b : Byte) : (s.store a b).drawFlag = s.drawFlag := rfl
@[simp] theorem State.store_halted (a : Nat) (b : Byte) : (s.store a b).halted = s.halted := rfl
@[simp] theorem State.store_errOpcode (a : Nat) (b : Byte) : (s.store a b).errOpcode = s.errOpcode := rfl
@[simp] theorem State.store_errPc (a : Nat) (b : Byte) : (s.store a b).errPc = s.errPc := rfl
@[simp] theorem State.store_draws (a : Nat) (b : Byte) : (s.store a b).draws = s.draws := rfl

/-! ### writeV -/

@[simp] theorem State.writeV_v (x : Reg) (b : Byte) : (s.writeV x b).v = s.v.set x.toNat b x.isLt := rfl
@[simp] theorem State.writeV_iReg (x : Reg) (b : Byte) : (s.writeV x b).iReg = s.iReg := rfl
@[simp] theorem State.writeV_pc (x : Reg) (b : Byte) : (s.writeV x b).pc = s.pc := rfl
@[simp] theorem State.writeV_sp (x : Reg) (b : Byte) : (s.writeV x b).sp = s.sp := rfl
@[simp] theorem State.writeV_stack (x : Reg) (b : Byte) : (s.writeV x b).stack = s.stack := rfl
@[simp] theorem State.writeV_dt (x : Reg) (b : Byte) : (s.writeV x b).dt = s.dt := rfl
@[simp] theorem State.writeV_st (x : Reg) (b : Byte) : (s.writeV x b).st = s.st := rfl
@[simp] theorem State.writeV_mem (x : Reg) (b : Byte) : (s.writeV x b).mem = s.mem := rfl
@[simp] theorem State.writeV_disp (x : Reg) (b : Byte) : (s.writeV x b).disp = s.disp := rfl
@[simp] theorem State.writeV_keysCur (x : Reg) (b : Byte) : (s.writeV x b).keysCur = s.keysCur := rfl
@[simp] theorem State.writeV_keysPrev (x : Reg) (b : Byte) : (s.writeV x b).keysPrev = s.keysPrev := rfl
@[simp] theorem State.writeV_drawFlag (x : Reg) (b : Byte) : (s.writeV x b).drawFlag = s.drawFlag := rfl
@[simp] theorem State.writeV_halted (x : Reg) (b : Byte) : (s.writeV x b).halted = s.halted := rfl
@[simp] theorem State.writeV_errOpcode (x : Reg) (b : Byte) : (s.writeV x b).errOpcode = s.errOpcode := rfl
@[simp] theorem State.writeV_errPc (x : Reg) (b : Byte) : (s.writeV x b).errPc = s.errPc := rfl
@[simp] theorem State.writeV_draws (x : Reg) (b : Byte) : (s.writeV x b).draws = s.draws := rfl

/-! ### writeFlag -/

@[simp] theorem State.writeFlag_iReg (f : Bool) : (s.writeFlag f).iReg = s.iReg := rfl
@[simp] theorem State.writeFlag_pc (f : Bool) : (s.writeFlag f).pc = s.pc := rfl
@[simp] theorem State.writeFlag_sp (f : Bool) : (s.writeFlag f).sp = s.sp := rfl
@[simp] theorem State.writeFlag_stack (f : Bool) : (s.writeFlag f).stack = s.stack := rfl
@[simp] theorem State.writeFlag_dt (f : Bool) : (s.writeFlag f).dt = s.dt := rfl
@[simp] theorem State.writeFlag_st (f : Bool) : (s.writeFlag f).st = s.st := rfl
@[simp] theorem State.writeFlag_mem (f : Bool) : (s.writeFlag f).mem = s.mem := rfl
@[simp] theorem State.writeFlag_disp (f : Bool) : (s.writeFlag f).disp = s.disp := rfl
@[simp] theorem State.writeFlag_keysCur (f : Bool) : (s.writeFlag f).keysCur = s.keysCur := rfl
@[simp] theorem State.writeFlag_keysPrev (f : Bool) : (s.writeFlag f).keysPrev = s.keysPrev := rfl
@[simp] theorem State.writeFlag_drawFlag (f : Bool) : (s.writeFlag f).drawFlag = s.drawFlag := rfl
@[simp] theorem State.writeFlag_halted (f : Bool) : (s.writeFlag f).halted = s.halted := rfl
@[simp] theorem State.writeFlag_errOpcode (f : Bool) : (s.writeFlag f).errOpcode = s.errOpcode := rfl
@[simp] theorem State.writeFlag_errPc (f : Bool) : (s.writeFlag f).errPc = s.errPc := rfl
@[simp] theorem State.writeFlag_draws (f : Bool) : (s.writeFlag f).draws = s.draws := rfl

/-! ### writeResultFlag -/

@[simp] theorem State.writeResultFlag_iReg (x : Reg) (b : Byte) (f : Bool) : (s.writeResultFlag x b f).iReg = s.iReg := rfl
@[simp] theorem State.writeResultFlag_pc (x : Reg) (b : Byte) (f : Bool) : (s.writeResultFlag x b f).pc = s.pc := rfl
@[simp] theorem State.writeResultFlag_sp (x : Reg) (b : Byte) (f : Bool) : (s.writeResultFlag x b f).sp = s.sp := rfl
@[simp] theorem State.writeResultFlag_stack (x : Reg) (b : Byte) (f : Bool) : (s.writeResultFlag x b f).stack = s.stack := rfl
@[simp] theorem State.writeResultFlag_dt (x : Reg) (b : Byte) (f : Bool) : (s.writeResultFlag x b f).dt = s.dt := rfl
@[simp] theorem State.writeResultFlag_st (x : Reg) (b : Byte) (f : Bool) : (s.writeResultFlag x b f).st = s.st := rfl
@[simp] theorem State.writeResultFlag_mem (x : Reg) (b : Byte) (f : Bool) : (s.writeResultFlag x b f).mem = s.mem := rfl
@[simp] theorem State.writeResultFlag_disp (x : Reg) (b : Byte) (f : Bool) : (s.writeResultFlag x b f).disp = s.disp := rfl
@[simp] theorem State.writeResultFlag_keysCur (x : Reg) (b : Byte) (f : Bool) : (s.writeResultFlag x b f).keysCur = s.keysCur := rfl
@[simp] theorem State.writeResultFlag_keysPrev (x : Reg) (b : Byte) (f : Bool) : (s.writeResultFlag x b f).keysPrev = s.keysPrev := rfl
@[simp] theorem State.writeResultFlag_drawFlag (x : Reg) (b : Byte) (f : Bool) : (s.writeResultFlag x b f).drawFlag = s.drawFlag := rfl
@[simp] theorem State.writeResultFlag_halted (x : Reg) (b : Byte) (f : Bool) : (s.writeResultFlag x b f).halted = s.halted := rfl
@[simp] theorem State.writeResultFlag_errOpcode (x : Reg) (b : Byte) (f : Bool) : (s.writeResultFlag x b f).errOpcode = s.errOpcode := rfl
@[simp] theorem State.writeResultFlag_errPc (x : Reg) (b : Byte) (f : Bool) : (s.writeResultFlag x b f).errPc = s.errPc := rfl
@[simp] theorem State.writeResultFlag_draws (x : Reg) (b : Byte) (f : Bool) : (s.writeResultFlag x b f).draws = s.draws := rfl

/-! ### jumpTo -/

@[simp] theorem State.jumpTo_v (t : Word) : (s.jumpTo t).v = s.v := rfl
@[simp] theorem State.jumpTo_iReg (t : Word) : (s.jumpTo t).iReg = s.iReg := rfl
@[simp] theorem State.jumpTo_pc (t : Word) : (s.jumpTo t).pc = t := rfl
@[simp] theorem State.jumpTo_sp (t : Word) : (s.jumpTo t).sp = s.sp := rfl
@[simp] theorem State.jumpTo_stack (t : Word) : (s.jumpTo t).stack = s.stack := rfl
@[simp] theorem State.jumpTo_dt (t : Word) : (s.jumpTo t).dt = s.dt := rfl
@[simp] theorem State.jumpTo_st (t : Word) : (s.jumpTo t).st = s.st := rfl
@[simp] theorem State.jumpTo_mem (t : Word) : (s.jumpTo t).mem = s.mem := rfl
@[simp] theorem State.jumpTo_disp (t : Word) : (s.jumpTo t).disp = s.disp := rfl
@[simp] theorem State.jumpTo_keysCur (t : Word) : (s.jumpTo t).keysCur = s.keysCur := rfl
@[simp] theorem State.jumpTo_keysPrev (t : Word) : (s.jumpTo t).keysPrev = s.keysPrev := rfl
@[simp] theorem State.jumpTo_drawFlag (t : Word) : (s.jumpTo t).drawFlag = s.drawFlag := rfl
@[simp] theorem State.jumpTo_halted (t : Word) : (s.jumpTo t).halted = s.halted := rfl
@[simp] theorem State.jumpTo_errOpcode (t : Word) : (s.jumpTo t).errOpcode = s.errOpcode := rfl
@[simp] theorem State.jumpTo_errPc (t : Word) : (s.jumpTo t).errPc = s.errPc := rfl
@[simp] theorem State.jumpTo_draws (t : Word) : (s.jumpTo t).draws = s.draws := rfl

/-! ### rewind -/

@[simp] theorem State.rewind_v : s.rewind.v = s.v := rfl
@[simp] theorem State.rewind_iReg : s.rewind.iReg = s.iReg := rfl
@[simp] theorem State.rewind_pc : s.rewind.pc = s.pc - 2 := rfl
@[simp] theorem State.rewind_sp : s.rewind.sp = s.sp := rfl
@[simp] theorem State.rewind_stack : s.rewind.stack = s.stack := rfl
@[simp] theorem State.rewind_dt : s.rewind.dt = s.dt := rfl
@[simp] theorem State.rewind_st : s.rewind.st = s.st := rfl
@[simp] theorem State.rewind_mem : s.rewind.mem = s.mem := rfl
@[simp] theorem State.rewind_disp : s.rewind.disp = s.disp := rfl
@[simp] theorem State.rewind_keysCur : s.rewind.keysCur = s.keysCur := rfl
@[simp] theorem State.rewind_keysPrev : s.rewind.keysPrev = s.keysPrev := rfl
@[simp] theorem State.rewind_drawFlag : s.rewind.drawFlag = s.drawFlag := rfl
@[simp] theorem State.rewind_halted : s.rewind.halted = s.halted := rfl
@[simp] theorem State.rewind_errOpcode : s.rewind.errOpcode = s.errOpcode := rfl
@[simp] theorem State.rewind_errPc : s.rewind.errPc = s.errPc := rfl
@[simp] theorem State.rewind_draws : s.rewind.draws = s.draws := rfl

/-! ### push -/

@[simp] theorem State.push_v (t : Word) : (s.push t).v = s.v := rfl
@[simp] theorem State.push_iReg (t : Word) : (s.push t).iReg = s.iReg := rfl
@[simp] theorem State.push_pc (t : Word) : (s.push t).pc = s.pc := rfl
@[simp] theorem State.push_sp (t : Word) : (s.push t).sp = s.sp + 1 := rfl
@[simp] theorem State.push_stack (t : Word) : (s.push t).stack = s.stack.set s.sp.toNat t s.sp.isLt := rfl
@[simp] theorem State.push_dt (t : Word) : (s.push t).dt = s.dt := rfl
@[simp] theorem State.push_st (t : Word) : (s.push t).st = s.st := rfl
@[simp] theorem State.push_mem (t : Word) : (s.push t).mem = s.mem := rfl
@[simp] theorem State.push_disp (t : Word) : (s.push t).disp = s.disp := rfl
@[simp] theorem State.push_keysCur (t : Word) : (s.push t).keysCur = s.keysCur := rfl
@[simp] theorem State.push_keysPrev (t : Word) : (s.push t).keysPrev = s.keysPrev := rfl
@[simp] theorem State.push_drawFlag (t : Word) : (s.push t).drawFlag = s.drawFlag := rfl
@[simp] theorem State.push_halted (t : Word) : (s.push t).halted = s.halted := rfl
@[simp] theorem State.push_errOpcode (t : Word) : (s.push t).errOpcode = s.errOpcode := rfl
@[simp] theorem State.push_errPc (t : Word) : (s.push t).errPc = s.errPc := rfl
@[simp] theorem State.push_draws (t : Word) : (s.push t).draws = s.draws := rfl

/-! ### popPc -/

@[simp] theorem State.popPc_v : s.popPc.v = s.v := rfl
@[simp] theorem State.popPc_iReg : s.popPc.iReg = s.iReg := rfl
@[simp] theorem State.popPc_pc : s.popPc.pc = s.stack[(s.sp - 1).toNat]'((s.sp - 1).isLt) := rfl
@[simp] theorem State.popPc_sp : s.popPc.sp = s.sp - 1 := rfl
@[simp] theorem State.popPc_stack : s.popPc.stack = s.stack := rfl
@[simp] theorem State.popPc_dt : s.popPc.dt = s.dt := rfl
@[simp] theorem State.popPc_st : s.popPc.st = s.st := rfl
@[simp] theorem State.popPc_mem : s.popPc.mem = s.mem := rfl
@[simp] theorem State.popPc_disp : s.popPc.disp = s.disp := rfl
@[simp] theorem State.popPc_keysCur : s.popPc.keysCur = s.keysCur := rfl
@[simp] theorem State.popPc_keysPrev : s.popPc.keysPrev = s.keysPrev := rfl
@[simp] theorem State.popPc_drawFlag : s.popPc.drawFlag = s.drawFlag := rfl
@[simp] theorem State.popPc_halted : s.popPc.halted = s.halted := rfl
@[simp] theorem State.popPc_errOpcode : s.popPc.errOpcode = s.errOpcode := rfl
@[simp] theorem State.popPc_errPc : s.popPc.errPc = s.errPc := rfl
@[simp] theorem State.popPc_draws : s.popPc.draws = s.draws := rfl

/-! ### drawn -/

@[simp] theorem State.drawn_v : s.drawn.v = s.v := rfl
@[simp] theorem State.drawn_iReg : s.drawn.iReg = s.iReg := rfl
@[simp] theorem State.drawn_pc : s.drawn.pc = s.pc := rfl
@[simp] theorem State.drawn_sp : s.drawn.sp = s.sp := rfl
@[simp] theorem State.drawn_stack : s.drawn.stack = s.stack := rfl
@[simp] theorem State.drawn_dt : s.drawn.dt = s.dt := rfl
@[simp] theorem State.drawn_st : s.drawn.st = s.st := rfl
@[simp] theorem State.drawn_mem : s.drawn.mem = s.mem := rfl
@[simp] theorem State.drawn_disp : s.drawn.disp = s.disp := rfl
@[simp] theorem State.drawn_keysCur : s.drawn.keysCur = s.keysCur := rfl
@[simp] theorem State.drawn_keysPrev : s.drawn.keysPrev = s.keysPrev := rfl
@[simp] theorem State.drawn_drawFlag : s.drawn.drawFlag = s.drawFlag := rfl
@[simp] theorem State.drawn_halted : s.drawn.halted = s.halted := rfl
@[simp] theorem State.drawn_errOpcode : s.drawn.errOpcode = s.errOpcode := rfl
@[simp] theorem State.drawn_errPc : s.drawn.errPc = s.errPc := rfl
@[simp] theorem State.drawn_draws : s.drawn.draws = s.draws + 1 := rfl

/-! ### advance -/

@[simp] theorem State.advance_v : s.advance.v = s.v := rfl
@[simp] theorem State.advance_iReg : s.advance.iReg = s.iReg := rfl
@[simp] theorem State.advance_pc : s.advance.pc = s.pc + 2 := rfl
@[simp] theorem State.advance_sp : s.advance.sp = s.sp := rfl
@[simp] theorem State.advance_stack : s.advance.stack = s.stack := rfl
@[simp] theorem State.advance_dt : s.advance.dt = s.dt := rfl
@[simp] theorem State.advance_st : s.advance.st = s.st := rfl
@[simp] theorem State.advance_mem : s.advance.mem = s.mem := rfl
@[simp] theorem State.advance_disp : s.advance.disp = s.disp := rfl
@[simp] theorem State.advance_keysCur : s.advance.keysCur = s.keysCur := rfl
@[simp] theorem State.advance_keysPrev : s.advance.keysPrev = s.keysPrev := rfl
@[simp] theorem State.advance_drawFlag : s.advance.drawFlag = s.drawFlag := rfl
@[simp] theorem State.advance_halted : s.advance.halted = s.halted := rfl
@[simp] theorem State.advance_errOpcode : s.advance.errOpcode = s.errOpcode := rfl
@[simp] theorem State.advance_errPc : s.advance.errPc = s.errPc := rfl
@[simp] theorem State.advance_draws : s.advance.draws = s.draws := rfl

/-! ### finish -/

@[simp] theorem State.finish_v (i : Instr) : (s.finish i).v = s.v := rfl
@[simp] theorem State.finish_iReg (i : Instr) : (s.finish i).iReg = s.iReg := rfl
@[simp] theorem State.finish_pc (i : Instr) : (s.finish i).pc = s.pc := rfl
@[simp] theorem State.finish_sp (i : Instr) : (s.finish i).sp = s.sp := rfl
@[simp] theorem State.finish_stack (i : Instr) : (s.finish i).stack = s.stack := rfl
@[simp] theorem State.finish_dt (i : Instr) : (s.finish i).dt = s.dt := rfl
@[simp] theorem State.finish_st (i : Instr) : (s.finish i).st = s.st := rfl
@[simp] theorem State.finish_mem (i : Instr) : (s.finish i).mem = s.mem := rfl
@[simp] theorem State.finish_disp (i : Instr) : (s.finish i).disp = s.disp := rfl
@[simp] theorem State.finish_keysCur (i : Instr) : (s.finish i).keysCur = s.keysCur := rfl
@[simp] theorem State.finish_keysPrev (i : Instr) : (s.finish i).keysPrev = s.keysCur := rfl
@[simp] theorem State.finish_drawFlag (i : Instr) : (s.finish i).drawFlag = isDraw i := rfl
@[simp] theorem State.finish_halted (i : Instr) : (s.finish i).halted = s.halted := rfl
@[simp] theorem State.finish_errOpcode (i : Instr) : (s.finish i).errOpcode = s.errOpcode := rfl
@[simp] theorem State.finish_errPc (i : Instr) : (s.finish i).errPc = s.errPc := rfl
@[simp] theorem State.finish_draws (i : Instr) : (s.finish i).draws = s.draws := rfl

/-! ### raiseDecodeError -/

@[simp] theorem State.raiseDecodeError_v (op : Word) : (s.raiseDecodeError op).v = s.v := rfl
@[simp] theorem State.raiseDecodeError_iReg (op : Word) : (s.raiseDecodeError op).iReg = s.iReg := rfl
@[simp] theorem State.raiseDecodeError_pc (op : Word) : (s.raiseDecodeError op).pc = s.pc + 2 := rfl
@[simp] theorem State.raiseDecodeError_sp (op : Word) : (s.raiseDecodeError op).sp = s.sp := rfl
@[simp] theorem State.raiseDecodeError_stack (op : Word) : (s.raiseDecodeError op).stack = s.stack := rfl
@[simp] theorem State.raiseDecodeError_dt (op : Word) : (s.raiseDecodeError op).dt = s.dt := rfl
@[simp] theorem State.raiseDecodeError_st (op : Word) : (s.raiseDecodeError op).st = s.st := rfl
@[simp] theorem State.raiseDecodeError_mem (op : Word) : (s.raiseDecodeError op).mem = s.mem := rfl
@[simp] theorem State.raiseDecodeError_disp (op : Word) : (s.raiseDecodeError op).disp = s.disp := rfl
@[simp] theorem State.raiseDecodeError_keysCur (op : Word) : (s.raiseDecodeError op).keysCur = s.keysCur := rfl
@[simp] theorem State.raiseDecodeError_keysPrev (op : Word) : (s.raiseDecodeError op).keysPrev = s.keysCur := rfl
@[simp] theorem State.raiseDecodeError_drawFlag (op : Word) : (s.raiseDecodeError op).drawFlag = false := rfl
@[simp] theorem State.raiseDecodeError_halted (op : Word) : (s.raiseDecodeError op).halted = true := rfl
@[simp] theorem State.raiseDecodeError_errOpcode (op : Word) : (s.raiseDecodeError op).errOpcode = op := rfl
@[simp] theorem State.raiseDecodeError_errPc (op : Word) : (s.raiseDecodeError op).errPc = s.pc := rfl
@[simp] theorem State.raiseDecodeError_draws (op : Word) : (s.raiseDecodeError op).draws = s.draws := rfl

/-! ### tick -/

@[simp] theorem State.tick_v : s.tick.v = s.v := rfl
@[simp] theorem State.tick_iReg : s.tick.iReg = s.iReg := rfl
@[simp] theorem State.tick_pc : s.tick.pc = s.pc := rfl
@[simp] theorem State.tick_sp : s.tick.sp = s.sp := rfl
@[simp] theorem State.tick_stack : s.tick.stack = s.stack := rfl
@[simp] theorem State.tick_dt : s.tick.dt = tickTimer s.dt := rfl
@[simp] theorem State.tick_st : s.tick.st = tickTimer s.st := rfl
@[simp] theorem State.tick_mem : s.tick.mem = s.mem := rfl
@[simp] theorem State.tick_disp : s.tick.disp = s.disp := rfl
@[simp] theorem State.tick_keysCur : s.tick.keysCur = s.keysCur := rfl
@[simp] theorem State.tick_keysPrev : s.tick.keysPrev = s.keysPrev := rfl
@[simp] theorem State.tick_drawFlag : s.tick.drawFlag = s.drawFlag := rfl
@[simp] theorem State.tick_halted : s.tick.halted = s.halted := rfl
@[simp] theorem State.tick_errOpcode : s.tick.errOpcode = s.errOpcode := rfl
@[simp] theorem State.tick_errPc : s.tick.errPc = s.errPc := rfl
@[simp] theorem State.tick_draws : s.tick.draws = s.draws := rfl

/-! ### setKeys -/

@[simp] theorem State.setKeys_v (mask : Word) : (s.setKeys mask).v = s.v := rfl
@[simp] theorem State.setKeys_iReg (mask : Word) : (s.setKeys mask).iReg = s.iReg := rfl
@[simp] theorem State.setKeys_pc (mask : Word) : (s.setKeys mask).pc = s.pc := rfl
@[simp] theorem State.setKeys_sp (mask : Word) : (s.setKeys mask).sp = s.sp := rfl
@[simp] theorem State.setKeys_stack (mask : Word) : (s.setKeys mask).stack = s.stack := rfl
@[simp] theorem State.setKeys_dt (mask : Word) : (s.setKeys mask).dt = s.dt := rfl
@[simp] theorem State.setKeys_st (mask : Word) : (s.setKeys mask).st = s.st := rfl
@[simp] theorem State.setKeys_mem (mask : Word) : (s.setKeys mask).mem = s.mem := rfl
@[simp] theorem State.setKeys_disp (mask : Word) : (s.setKeys mask).disp = s.disp := rfl
@[simp] theorem State.setKeys_keysCur (mask : Word) : (s.setKeys mask).keysCur = mask := rfl
@[simp] theorem State.setKeys_keysPrev (mask : Word) : (s.setKeys mask).keysPrev = s.keysPrev := rfl
@[simp] theorem State.setKeys_drawFlag (mask : Word) : (s.setKeys mask).drawFlag = s.drawFlag := rfl
@[simp] theorem State.setKeys_halted (mask : Word) : (s.setKeys mask).halted = s.halted := rfl
@[simp] theorem State.setKeys_errOpcode (mask : Word) : (s.setKeys mask).errOpcode = s.errOpcode := rfl
@[simp] theorem State.setKeys_errPc (mask : Word) : (s.setKeys mask).errPc = s.errPc := rfl
@[simp] theorem State.setKeys_draws (mask : Word) : (s.setKeys mask).draws = s.draws := rfl

/-! ### load -/

@[simp] theorem State.load_v (rom : List Byte) : (s.load rom).v = s.v := rfl
@[simp] theorem State.load_iReg (rom : List Byte) : (s.load rom).iReg = s.iReg := rfl
@[simp] theorem State.load_pc (rom : List Byte) : (s.load rom).pc = s.pc := rfl
@[simp] theorem State.load_sp (rom : List Byte) : (s.load rom).sp = s.sp := rfl
@[simp] theorem State.load_stack (rom : List Byte) : (s.load rom).stack = s.stack := rfl
@[simp] theorem State.load_dt (rom : List Byte) : (s.load rom).dt = s.dt := rfl
@[simp] theorem State.load_st (rom : List Byte) : (s.load rom).st = s.st := rfl
@[simp] theorem State.load_mem (rom : List Byte) : (s.load rom).mem = s.mem.writeBytes romBase (rom.take romRoom) := rfl
@[simp] theorem State.load_disp (rom : List Byte) : (s.load rom).disp = s.disp := rfl
@[simp] theorem State.load_keysCur (rom : List Byte) : (s.load rom).keysCur = s.keysCur := rfl
@[simp] theorem State.load_keysPrev (rom : List Byte) : (s.load rom).keysPrev = s.keysPrev := rfl
@[simp] theorem State.load_drawFlag (rom : List Byte) : (s.load rom).drawFlag = s.drawFlag := rfl
@[simp] theorem State.load_halted (rom : List Byte) : (s.load rom).halted = s.halted := rfl
@[simp] theorem State.load_errOpcode (rom : List Byte) : (s.load rom).errOpcode = s.errOpcode := rfl
@[simp] theorem State.load_errPc (rom : List Byte) : (s.load rom).errPc = s.errPc := rfl
@[simp] theorem State.load_draws (rom : List Byte) : (s.load rom).draws = s.draws := rfl

/-! ### skipIf -/

/-- A skip writes `pc` only. -/
theorem State.skipIf_eq (c : Bool) : s.skipIf c = { s with pc := if c then s.pc + 2 else s.pc } := by cases c <;> rfl

@[simp] theorem State.skipIf_v (c : Bool) : (s.skipIf c).v = s.v := by cases c <;> rfl
@[simp] theorem State.skipIf_iReg (c : Bool) : (s.skipIf c).iReg = s.iReg := by cases c <;> rfl
@[simp] theorem State.skipIf_pc (c : Bool) : (s.skipIf c).pc = if c then s.pc + 2 else s.pc := by cases c <;> rfl
@[simp] theorem State.skipIf_sp (c : Bool) : (s.skipIf c).sp = s.sp := by cases c <;> rfl
@[simp] theorem State.skipIf_stack (c : Bool) : (s.skipIf c).stack = s.stack := by cases c <;> rfl
@[simp] theorem State.skipIf_dt (c : Bool) : (s.skipIf c).dt = s.dt := by cases c <;> rfl
@[simp] theorem State.skipIf_st (c : Bool) : (s.skipIf c).st = s.st := by cases c <;> rfl
@[simp] theorem State.skipIf_mem (c : Bool) : (s.skipIf c).mem = s.mem := by cases c <;> rfl
@[simp] theorem State.skipIf_disp (c : Bool) : (s.skipIf c).disp = s.disp := by cases c <;> rfl
@[simp] theorem State.skipIf_keysCur (c : Bool) : (s.skipIf c).keysCur = s.keysCur := by cases c <;> rfl
@[simp] theorem State.skipIf_keysPrev (c : Bool) : (s.skipIf c).keysPrev = s.keysPrev := by cases c <;> rfl
@[simp] theorem State.skipIf_drawFlag (c : Bool) : (s.skipIf c).drawFlag = s.drawFlag := by cases c <;> rfl
@[simp] theorem State.skipIf_halted (c : Bool) : (s.skipIf c).halted = s.halted := by cases c <;> rfl
@[simp] theorem State.skipIf_errOpcode (c : Bool) : (s.skipIf c).errOpcode = s.errOpcode := by cases c <;> rfl
@[simp] theorem State.skipIf_errPc (c : Bool) : (s.skipIf c).errPc = s.errPc := by cases c <;> rfl
@[simp] theorem State.skipIf_draws (c : Bool) : (s.skipIf c).draws = s.draws := by cases c <;> rfl

/-! ### Reset -/

@[simp] theorem State.resetMachine_draws : s.resetMachine.draws = s.draws := rfl
@[simp] theorem State.resetMachine_mem : s.resetMachine.mem = [] := rfl
@[simp] theorem State.resetMachine_pc : s.resetMachine.pc = 0x200 := rfl
@[simp] theorem State.resetMachine_halted : s.resetMachine.halted = false := rfl

/-- Two states with the same draws are the same after Reset: nothing else survives it (R300). -/
theorem State.resetMachine_eq_of_draws {s t : State} (h : s.draws = t.draws) : s.resetMachine = t.resetMachine := by
  simp [State.resetMachine, h]

end Sys2Proof.Machine
end

