-- ==== Sys2Proof/Laws/Ops.lean ====
section
/-! SUPPORT. One lemma for each shared operation that says everything it can do: registers, flags, stack, block moves,
sprites, the least released key. -/

namespace Sys2Proof.Machine

/-! ## Registers -/

/-- Everything a register write does to the registers: no alias, no hard-wired register (R20). -/
theorem State.readV_writeV (s : State) (x : Reg) (b : Byte) (y : Reg) :
    (s.writeV x b).readV y = if x = y then b else s.readV y := by
  simp [State.readV, State.writeV, Vector.getElem_set, BitVec.toNat_inj]

@[simp] theorem State.readV_writeV_same (s : State) (x : Reg) (b : Byte) : (s.writeV x b).readV x = b := by
  simp [State.readV_writeV]

theorem State.readV_writeV_of_ne (s : State) (b : Byte) {x y : Reg} (h : x ≠ y) :
    (s.writeV x b).readV y = s.readV y := by simp [State.readV_writeV, h]

theorem State.readV_writeFlag (s : State) (f : Bool) (y : Reg) :
    (s.writeFlag f).readV y = if flagReg = y then (if f then 1 else 0) else s.readV y :=
  State.readV_writeV s _ _ y

/-- With `x = 15` the flag stays, not the result (R160). -/
theorem State.readV_writeResultFlag (s : State) (x : Reg) (b : Byte) (f : Bool) (y : Reg) :
    (s.writeResultFlag x b f).readV y =
      if flagReg = y then (if f then 1 else 0) else if x = y then b else s.readV y := by
  rw [State.writeResultFlag, State.readV_writeFlag, State.readV_writeV]

/-- Registers are read from the field `v` alone. -/
theorem State.readV_congr {s t : State} (h : s.v = t.v) (x : Reg) : s.readV x = t.readV x := by
  simp [State.readV, h]

theorem State.v_ext {s t : State} (h : ∀ x, s.readV x = t.readV x) : s.v = t.v := by
  refine Vector.ext fun i hi => ?_
  simpa [State.readV, Nat.mod_eq_of_lt hi] using h (BitVec.ofNat 4 i)

theorem State.writeV_eq (s : State) (x : Reg) (b : Byte) : s.writeV x b = { s with v := (s.writeV x b).v } := rfl

theorem State.writeFlag_eq (s : State) (f : Bool) : s.writeFlag f = { s with v := (s.writeFlag f).v } := rfl

theorem State.writeResultFlag_eq (s : State) (x : Reg) (b : Byte) (f : Bool) :
    s.writeResultFlag x b f = { s with v := (s.writeResultFlag x b f).v } := rfl

/-! ## Results with a flag, as numbers -/

theorem wideSum_toNat (a b : Byte) : (wideSum a b).toNat = a.toNat + b.toNat := by
  have := a.isLt
  have := b.isLt
  simp only [wideSum, BitVec.toNat_add, BitVec.toNat_setWidth]
  omega

theorem sumByte_toNat (a b : Byte) : (sumByte a b).toNat = (a.toNat + b.toNat) % 256 := by
  simp [sumByte, wideSum_toNat]

theorem carry_eq (a b : Byte) : carry a b = decide (255 < a.toNat + b.toNat) := by
  simp [carry, wideSum_toNat]

theorem differenceByte_toNat (a b : Byte) : (differenceByte a b).toNat = (a.toNat + 256 - b.toNat) % 256 := by
  have := b.isLt
  simp only [differenceByte, BitVec.toNat_sub]
  omega

theorem shiftRightByte_toNat (b : Byte) : (shiftRightByte b).toNat = b.toNat / 2 := by
  simp [shiftRightByte, Nat.shiftRight_eq_div_pow]

theorem shiftLeftByte_toNat (b : Byte) : (shiftLeftByte b).toNat = b.toNat * 2 % 256 := by
  simp [shiftLeftByte, Nat.shiftLeft_eq]

theorem lowBit_eq (b : Byte) : lowBit b = decide (b.toNat % 2 = 1) := by
  simp [lowBit, BitVec.getLsbD, Nat.testBit_zero]

theorem highBit_eq (b : Byte) : highBit b = decide (128 ≤ b.toNat) := by
  revert b; decide

/-! ## Operands -/

theorem addrWord_toNat (nnn : Addr) : (addrWord nnn).toNat = nnn.toNat := by
  have := nnn.isLt
  simp only [addrWord, BitVec.toNat_setWidth]
  omega

theorem byteWord_toNat (b : Byte) : (byteWord b).toNat = b.toNat := by
  have := b.isLt
  simp only [byteWord, BitVec.toNat_setWidth]
  omega

theorem glyphAddr_toNat (b : Byte) : (glyphAddr b).toNat = 5 * b.toNat := by
  have := b.isLt
  simp only [glyphAddr, BitVec.toNat_mul, byteWord_toNat, show BitVec.toNat (5 : Word) = 5 from rfl]
  omega

theorem blockReg_toNat {i : Nat} (h : i < 16) : (blockReg i).toNat = i := by
  simp [blockReg, Nat.mod_eq_of_lt h]

theorem blockReg_of_toNat (x : Reg) : blockReg x.toNat = x := by simp [blockReg]

/-- The least released key: it is released, and no lower key is (R227). -/
theorem leastKey_eq_some {rel : Word} {k : Nat} :
    leastKey rel = some k ↔ k < 16 ∧ rel.getLsbD k = true ∧ ∀ j < k, rel.getLsbD j = false := by
  simp only [leastKey, List.find?_range_eq_some]
  constructor
  · rintro ⟨h1, h2, h3⟩
    exact ⟨by simpa using h2, h1, fun j hj => by simpa using h3 j hj⟩
  · rintro ⟨h1, h2, h3⟩
    exact ⟨h2, by simpa using h1, fun j hj => by simpa using h3 j hj⟩

/-- No key is released exactly when the mask of release edges is 0 (R226, R227). -/
theorem leastKey_eq_none {rel : Word} : leastKey rel = none ↔ rel = 0 := by
  simp only [leastKey, List.find?_range_eq_none]
  constructor
  · intro h
    refine BitVec.eq_of_getLsbD_eq fun i hi => ?_
    simpa using h i hi
  · rintro rfl i _
    simp

/-! ## Stack -/

/-- A return straight after a push takes what was pushed and gives the stack pointer back (R141, R142). -/
theorem State.popPc_push (s : State) (t : Word) : ((s.push t).popPc).pc = t ∧ ((s.push t).popPc).sp = s.sp := by
  have h : s.sp + 1 - 1 = s.sp := by simp
  constructor
  · simp only [State.popPc, State.push, h]
    exact Vector.getElem_set_self s.sp.isLt
  · simp

/-! ## Block moves -/

/-- The state a block store leaves, after the registers 0 to `n - 1` (R186). -/
theorem State.storeBlock_eq (s : State) (n : Nat) (hn : n ≤ 16) :
    (List.range n).foldl (fun t i => t.store (t.dataAddr i) (t.readV (blockReg i))) s =
      { s with mem := s.mem.writeBytes s.iReg.toNat ((List.range n).map fun i => s.readV (blockReg i)) } := by
  have append : ∀ (bs : List Byte) (m : Memory) (a : Nat) (b : Byte),
      m.writeBytes a (bs ++ [b]) = (m.writeBytes a bs).write (a + bs.length) b := by
    intro bs
    induction bs with
    | nil => intro m a b; rfl
    | cons c bs ih =>
      intro m a b
      rw [List.cons_append, Memory.writeBytes, ih, Memory.writeBytes, List.length_cons]
      congr 1
      omega
  induction n with
  | zero => rfl
  | succ n ih =>
    rw [List.range_succ, List.foldl_append, ih (by omega), List.map_append]
    simp only [List.foldl_cons, List.foldl_nil, List.map_cons, List.map_nil, append, List.length_map, List.length_range]
    rfl

/-- The registers after a block load of the registers 0 to `n - 1` (R187). -/
theorem State.loadBlock_readV (s : State) (n : Nat) (hn : n ≤ 16) (r : Reg) :
    ((List.range n).foldl (fun t i => t.writeV (blockReg i) (t.mem.read (t.dataAddr i))) s).readV r =
      if r.toNat < n then s.mem.read (s.iReg.toNat + r.toNat) else s.readV r := by
  have frame : ∀ (l : List Nat) (s : State),
      (l.foldl (fun t i => t.writeV (blockReg i) (t.mem.read (t.dataAddr i))) s).mem = s.mem ∧
      (l.foldl (fun t i => t.writeV (blockReg i) (t.mem.read (t.dataAddr i))) s).iReg = s.iReg := by
    intro l
    induction l with
    | nil => intro s; exact ⟨rfl, rfl⟩
    | cons i l ih => intro s; exact ih _
  induction n with
  | zero => simp
  | succ n ih =>
    rw [List.range_succ, List.foldl_append, List.foldl_cons, List.foldl_nil, State.readV_writeV, ih (by omega),
      State.dataAddr, (frame _ s).1, (frame _ s).2]
    by_cases h : blockReg n = r
    · have : r.toNat = n := by rw [← h, blockReg_toNat (by omega)]
      simp [h, this]
    · have : r.toNat ≠ n := fun e => h (by rw [← e, blockReg_of_toNat])
      rw [if_neg h]
      by_cases hlt : r.toNat < n
      · rw [if_pos hlt, if_pos (by omega)]
      · rw [if_neg hlt, if_neg (by omega)]

/-- A block load changes the registers only (R185, R187). -/
theorem State.loadBlock_eq (s : State) (l : List Nat) :
    ∃ v, l.foldl (fun t i => t.writeV (blockReg i) (t.mem.read (t.dataAddr i))) s = { s with v := v } := by
  induction l generalizing s with
  | nil => exact ⟨s.v, rfl⟩
  | cons i l ih =>
    obtain ⟨v, hv⟩ := ih (s.writeV (blockReg i) (s.mem.read (s.dataAddr i)))
    exact ⟨v, by rw [List.foldl_cons, hv]; rfl⟩

end Sys2Proof.Machine
end

