-- ==== Sys2Proof/Laws/Draw.lean ====
section
/-! SUPPORT. What drawing does, cell by cell: every cell is XORed with its sprite bit, and the collision bit tells
whether a drawn cell was on (`44_display.md` R202, R203). -/

namespace Sys2Proof.Machine

open Sys2Proof.Safety (spriteBit)

/-! ## Cells -/

theorem Display.cell_flip (d : Display) {x y : Nat} (hx : x < 64) (hy : y < 32) (x' y' : Nat) :
    (d.flip x y).cell x' y' = (d.cell x' y' ^^ decide (x' = x ∧ y' = y)) := by
  have hrow : (Display.flip d x y).row y' =
      if y = y' then (d.row y).setIfInBounds x (!(d.cell x y)) else d.row y' := by
    by_cases h : y = y'
    · subst h
      simp [Display.flip, Display.row, hy]
    · simp [Display.flip, Display.row, h]
  by_cases h : y = y'
  · subst h
    rw [Display.cell, hrow, if_pos rfl, Vector.getElem?_setIfInBounds]
    by_cases hxx : x = x'
    · subst hxx
      simp [hx]
    · simp [hxx, Ne.symm hxx, Display.cell]
  · simp [Display.cell, hrow, h, Ne.symm h]

/-- A display is its cells. -/
theorem Display.ext_cell {d e : Display} (h : ∀ x < 64, ∀ y < 32, d.cell x y = e.cell x y) : d = e := by
  refine Vector.ext fun y hy => Vector.ext fun x hx => ?_
  simpa [Display.cell, Display.row, hx, hy] using h x hx y hy

@[simp] theorem Display.cell_blank (x y : Nat) : Display.blank.cell x y = false := by
  have hrow : Display.blank.row y = Vector.replicate 64 false := by
    by_cases h : y < 32
    · simp [Display.row, Display.blank, h]
    · simp [Display.row, Display.blank, h]
  rw [Display.cell, hrow]
  by_cases h : x < 64
  · simp [h]
  · simp [h]

/-! ## One sprite row -/

/-- The row of start column `x0` whose columns still to draw are `cs` has a 1 bit at column `x`. -/
def columnsBit (x0 : Nat) (b : Byte) (cs : List Nat) (x : Nat) : Bool :=
  cs.any fun c => x0 + c == x && b.getLsbD (7 - c)

theorem Canvas.drawColumns_spec (x0 : Nat) {y : Nat} (hy : y < 32) (b : Byte) (cs : List Nat)
    (hcs : cs.Pairwise (· < ·)) (k : Canvas) :
    (∀ x < 64, ∀ y', (Canvas.drawColumns x0 y b cs k).disp.cell x y' =
      (k.disp.cell x y' ^^ (decide (y' = y) && columnsBit x0 b cs x))) ∧
    ((Canvas.drawColumns x0 y b cs k).collided = true ↔
      k.collided = true ∨ ∃ x < 64, columnsBit x0 b cs x = true ∧ k.disp.cell x y = true) := by
  induction cs generalizing k with
  | nil => simp [Canvas.drawColumns, columnsBit]
  | cons c cs ih =>
    obtain ⟨hlt, hcs'⟩ := List.pairwise_cons.1 hcs
    rw [Canvas.drawColumns]
    split
    · rename_i hedge
      have none : ∀ x < 64, columnsBit x0 b (c :: cs) x = false := fun x hx => by
        simp only [columnsBit, List.any_eq_false, List.mem_cons]
        rintro e (rfl | he)
        · simp; omega
        · have := hlt e he
          simp; omega
      refine ⟨fun x hx y' => by simp [none x hx], ⟨.inl, ?_⟩⟩
      rintro (h | ⟨x, hx, hb, _⟩)
      · exact h
      · simp [none x hx] at hb
    · rename_i hedge
      obtain ⟨hcell, hcol⟩ := ih hcs' (k.plot (x0 + c) y (b.getLsbD (7 - c)))
      have fresh : columnsBit x0 b cs (x0 + c) = false := by
        simp only [columnsBit, List.any_eq_false]
        intro e he
        have := hlt e he
        simp; omega
      have split : ∀ x, columnsBit x0 b (c :: cs) x =
          ((decide (x = x0 + c) && b.getLsbD (7 - c)) || columnsBit x0 b cs x) := fun x => by
        simp only [columnsBit, List.any_cons]
        congr 2
        rw [beq_eq_decide]
        exact decide_eq_decide.2 eq_comm
      have plot : ∀ x y', (k.plot (x0 + c) y (b.getLsbD (7 - c))).disp.cell x y' =
          (k.disp.cell x y' ^^ (decide (x = x0 + c ∧ y' = y) && b.getLsbD (7 - c))) := fun x y' => by
        rw [Canvas.plot]
        by_cases hb : b.getLsbD (7 - c) = true
        · rw [if_pos hb, Display.cell_flip _ (by omega) hy, hb, Bool.and_true]
        · rw [if_neg hb]; simp [hb]
      constructor
      · intro x hx y'
        rw [hcell x hx, plot, split]
        by_cases hx0 : x = x0 + c
        · subst hx0; by_cases hyy : y' = y <;> simp [fresh, hyy]
        · simp [hx0]
      · rw [hcol]
        have collided : (k.plot (x0 + c) y (b.getLsbD (7 - c))).collided = true ↔
            k.collided = true ∨ (b.getLsbD (7 - c) = true ∧ k.disp.cell (x0 + c) y = true) := by
          rw [Canvas.plot]
          by_cases hb : b.getLsbD (7 - c) = true
          · simp [hb]
          · simp [hb]
        rw [collided]
        constructor
        · rintro ((h | ⟨hb, hc⟩) | ⟨x, hx, hb, hc⟩)
          · exact .inl h
          · exact .inr ⟨x0 + c, by omega, by simp [split, hb], hc⟩
          · have hne : x ≠ x0 + c := fun e => by simp [e, fresh] at hb
            exact .inr ⟨x, hx, by simp [split, hb], by simpa [plot, hne] using hc⟩
        · rintro (h | ⟨x, hx, hb, hc⟩)
          · exact .inl (.inl h)
          · by_cases hne : x = x0 + c
            · subst hne
              refine .inl (.inr ⟨?_, hc⟩)
              simpa [split, fresh] using hb
            · exact .inr ⟨x, hx, by simpa [split, hne] using hb, by simpa [plot, hne] using hc⟩

theorem columnsBit_range (x0 : Nat) (b : Byte) (x : Nat) :
    columnsBit x0 b (List.range 8) x = (decide (x0 ≤ x ∧ x < x0 + 8) && b.getLsbD (7 - (x - x0))) := by
  rw [Bool.eq_iff_iff]
  simp only [columnsBit, List.any_eq_true, List.mem_range, Bool.and_eq_true, beq_iff_eq, decide_eq_true_eq]
  constructor
  · rintro ⟨c, hc, rfl, hb⟩
    exact ⟨by omega, by rwa [show x0 + c - x0 = c by omega]⟩
  · rintro ⟨h, hb⟩
    exact ⟨x - x0, by omega, by omega, hb⟩

/-! ## The whole sprite -/

/-- The sprite rows `rs` still to draw have a 1 bit at the cell `(x, y)`. -/
def rowsBit (m : Memory) (base x0 y0 : Nat) (rs : List Nat) (x y : Nat) : Bool :=
  rs.any fun r => y0 + r == y && columnsBit x0 (m.read (base + r)) (List.range 8) x

theorem Canvas.drawRows_spec (m : Memory) (base x0 y0 : Nat) (rs : List Nat) (hrs : rs.Pairwise (· < ·)) (k : Canvas) :
    (∀ x < 64, ∀ y < 32, (Canvas.drawRows m base x0 y0 rs k).disp.cell x y =
      (k.disp.cell x y ^^ rowsBit m base x0 y0 rs x y)) ∧
    ((Canvas.drawRows m base x0 y0 rs k).collided = true ↔
      k.collided = true ∨ ∃ x < 64, ∃ y < 32, rowsBit m base x0 y0 rs x y = true ∧ k.disp.cell x y = true) := by
  induction rs generalizing k with
  | nil => simp [Canvas.drawRows, rowsBit]
  | cons r rs ih =>
    obtain ⟨hlt, hrs'⟩ := List.pairwise_cons.1 hrs
    rw [Canvas.drawRows]
    split
    · rename_i hedge
      have none : ∀ x, ∀ y < 32, rowsBit m base x0 y0 (r :: rs) x y = false := fun x y hy => by
        simp only [rowsBit, List.any_eq_false, List.mem_cons]
        rintro e (rfl | he)
        · simp; omega
        · have := hlt e he
          simp; omega
      refine ⟨fun x _ y hy => by simp [none x y hy], ⟨.inl, ?_⟩⟩
      rintro (h | ⟨x, _, y, hy, hb, _⟩)
      · exact h
      · simp [none x y hy] at hb
    · rename_i hedge
      have hy : y0 + r < 32 := by omega
      obtain ⟨hcell1, hcol1⟩ := Canvas.drawColumns_spec x0 hy (m.read (base + r)) (List.range 8)
        List.pairwise_lt_range k
      obtain ⟨hcell, hcol⟩ := ih hrs' (Canvas.drawColumns x0 (y0 + r) (m.read (base + r)) (List.range 8) k)
      have fresh : ∀ x, rowsBit m base x0 y0 rs x (y0 + r) = false := fun x => by
        simp only [rowsBit, List.any_eq_false]
        intro e he
        have := hlt e he
        simp; omega
      have split : ∀ x y, rowsBit m base x0 y0 (r :: rs) x y =
          ((decide (y = y0 + r) && columnsBit x0 (m.read (base + r)) (List.range 8) x) || rowsBit m base x0 y0 rs x y) :=
        fun x y => by
          simp only [rowsBit, List.any_cons]
          congr 2
          rw [beq_eq_decide]
          exact decide_eq_decide.2 eq_comm
      constructor
      · intro x hx y hy'
        rw [hcell x hx y hy', hcell1 x hx, split]
        by_cases h : y = y0 + r
        · subst h; simp [fresh]
        · simp [h]
      · rw [hcol, hcol1]
        constructor
        · rintro ((h | ⟨x, hx, hb, hc⟩) | ⟨x, hx, y, hy', hb, hc⟩)
          · exact .inl h
          · exact .inr ⟨x, hx, y0 + r, hy, by simp [split, hb], hc⟩
          · have hne : y ≠ y0 + r := fun e => by simp [e, fresh] at hb
            exact .inr ⟨x, hx, y, hy', by simp [split, hb], by simpa [hcell1 x hx, hne] using hc⟩
        · rintro (h | ⟨x, hx, y, hy', hb, hc⟩)
          · exact .inl (.inl h)
          · by_cases hne : y = y0 + r
            · subst hne
              exact .inl (.inr ⟨x, hx, by simpa [split, fresh] using hb, hc⟩)
            · exact .inr ⟨x, hx, y, hy', by simpa [split, hne] using hb, by simpa [hcell1 x hx, hne] using hc⟩

theorem rowsBit_range (m : Memory) (base x0 y0 n x y : Nat) :
    rowsBit m base x0 y0 (List.range n) x y = spriteBit m base x0 y0 n x y := by
  rw [Bool.eq_iff_iff]
  simp only [rowsBit, spriteBit, columnsBit_range, List.any_eq_true, List.mem_range, Bool.and_eq_true, beq_iff_eq,
    decide_eq_true_eq]
  constructor
  · rintro ⟨r, hr, rfl, ⟨h, hb⟩⟩
    exact ⟨by omega, by rwa [show y0 + r - y0 = r by omega]⟩
  · rintro ⟨h, hb⟩
    exact ⟨y - y0, by omega, by omega, by omega, hb⟩

/-- Everything a draw does: each cell of the display is XORed with its sprite bit, and the draw collides exactly when a
drawn cell was on (R202, R203). -/
theorem State.spriteCanvas_spec (s : State) (x y : Reg) (n : Nibble) :
    (∀ cx < 64, ∀ cy < 32, (s.spriteCanvas x y n).disp.cell cx cy =
      (s.disp.cell cx cy ^^ spriteBit s.mem s.iReg.toNat (startColumn (s.readV x)) (startRow (s.readV y)) n.toNat cx cy)) ∧
    ((s.spriteCanvas x y n).collided = true ↔ ∃ cx < 64, ∃ cy < 32,
      spriteBit s.mem s.iReg.toNat (startColumn (s.readV x)) (startRow (s.readV y)) n.toNat cx cy = true ∧
      s.disp.cell cx cy = true) := by
  have h := Canvas.drawRows_spec s.mem (s.dataAddr 0) (startColumn (s.readV x)) (startRow (s.readV y))
    (List.range n.toNat) List.pairwise_lt_range { disp := s.disp, collided := false }
  simpa only [rowsBit_range, Bool.false_eq_true, false_or, State.spriteCanvas, State.dataAddr, Nat.add_zero] using h

end Sys2Proof.Machine
end

