-- ==== Sys2Proof/Laws/PerInstr.lean ====
section
/-! SUPPORT. A family of statements made per instruction: the encoded word of an instruction is selected by the
instruction's own row of the opcode map (`30_encoding.md` R95). -/

namespace Sys2Proof.Laws.RowSelects

/-- The word of `i` is selected by the row of R95 that `i` stands in. -/
def Statement (i : Instr) : Prop := ∃ r ∈ opcodeRows, r.number = i.row ∧ r.selects (encode i) = true

/-- A word of the right group is selected by a row that looks at the group only. -/
theorem selects_group (n : Nat) (g : Nibble) (value canonicalMask : Word) (op : Word) (hg : fieldG op = g)
    (hv : encodeXI g 0 0 = value) : (OpcodeRow.mk n 0xF000 value canonicalMask).selects op = true := by
  simp only [OpcodeRow.selects, and_F000, hg, hv, beq_self_eq_true]

/-- A word of the right group and low byte is selected by a row that looks at both. -/
theorem selects_byte (n : Nat) (g : Nibble) (nn : Byte) (value canonicalMask : Word) (op : Word) (hg : fieldG op = g)
    (hn : fieldNN op = nn) (hv : encodeXI g 0 nn = value) :
    (OpcodeRow.mk n 0xF0FF value canonicalMask).selects op = true := by
  simp only [OpcodeRow.selects, and_F0FF, hg, hn, hv, beq_self_eq_true]

/-- A word of the right group and low nibble is selected by a row that looks at both. -/
theorem selects_nibble (n : Nat) (g l : Nibble) (value canonicalMask : Word) (op : Word) (hg : fieldG op = g)
    (hn : fieldN op = l) (hv : encodeXYN g 0 0 l = value) :
    (OpcodeRow.mk n 0xF00F value canonicalMask).selects op = true := by
  simp only [OpcodeRow.selects, and_F00F, hg, hn, hv, beq_self_eq_true]

theorem cls (ign : Nibble) : Statement (.cls ign) :=
  ⟨⟨1, 0xF0FF, 0x00E0, 0xFFFF⟩, by simp [opcodeRows, opcodeRowsLow], rfl, selects_byte _ 0x0 0xe0 _ _ _ (by simp [encode]) (by simp [encode]) (by decide)⟩
theorem ret (ign : Nibble) : Statement (.ret ign) :=
  ⟨⟨2, 0xF0FF, 0x00EE, 0xFFFF⟩, by simp [opcodeRows, opcodeRowsLow], rfl, selects_byte _ 0x0 0xee _ _ _ (by simp [encode]) (by simp [encode]) (by decide)⟩
theorem jp (nnn : Addr) : Statement (.jp nnn) :=
  ⟨⟨3, 0xF000, 0x1000, 0xF000⟩, by simp [opcodeRows, opcodeRowsLow], rfl, selects_group _ 0x1 _ _ _ (by simp [encode]) (by decide)⟩
theorem call (nnn : Addr) : Statement (.call nnn) :=
  ⟨⟨4, 0xF000, 0x2000, 0xF000⟩, by simp [opcodeRows, opcodeRowsLow], rfl, selects_group _ 0x2 _ _ _ (by simp [encode]) (by decide)⟩
theorem seImm (x : Reg) (nn : Byte) : Statement (.seImm x nn) :=
  ⟨⟨5, 0xF000, 0x3000, 0xF000⟩, by simp [opcodeRows, opcodeRowsLow], rfl, selects_group _ 0x3 _ _ _ (by simp [encode]) (by decide)⟩
theorem sneImm (x : Reg) (nn : Byte) : Statement (.sneImm x nn) :=
  ⟨⟨6, 0xF000, 0x4000, 0xF000⟩, by simp [opcodeRows, opcodeRowsLow], rfl, selects_group _ 0x4 _ _ _ (by simp [encode]) (by decide)⟩
theorem seReg (x y : Reg) (ign : Nibble) : Statement (.seReg x y ign) :=
  ⟨⟨7, 0xF000, 0x5000, 0xF00F⟩, by simp [opcodeRows, opcodeRowsLow], rfl, selects_group _ 0x5 _ _ _ (by simp [encode]) (by decide)⟩
theorem ldImm (x : Reg) (nn : Byte) : Statement (.ldImm x nn) :=
  ⟨⟨8, 0xF000, 0x6000, 0xF000⟩, by simp [opcodeRows, opcodeRowsLow], rfl, selects_group _ 0x6 _ _ _ (by simp [encode]) (by decide)⟩
theorem addImm (x : Reg) (nn : Byte) : Statement (.addImm x nn) :=
  ⟨⟨9, 0xF000, 0x7000, 0xF000⟩, by simp [opcodeRows, opcodeRowsLow], rfl, selects_group _ 0x7 _ _ _ (by simp [encode]) (by decide)⟩
theorem ldReg (x y : Reg) : Statement (.ldReg x y) :=
  ⟨⟨10, 0xF00F, 0x8000, 0xF00F⟩, by simp [opcodeRows, opcodeRowsGroup8], rfl, selects_nibble _ 0x8 0x0 _ _ _ (by simp [encode]) (by simp [encode]) (by decide)⟩
theorem orReg (x y : Reg) : Statement (.orReg x y) :=
  ⟨⟨11, 0xF00F, 0x8001, 0xF00F⟩, by simp [opcodeRows, opcodeRowsGroup8], rfl, selects_nibble _ 0x8 0x1 _ _ _ (by simp [encode]) (by simp [encode]) (by decide)⟩
theorem andReg (x y : Reg) : Statement (.andReg x y) :=
  ⟨⟨12, 0xF00F, 0x8002, 0xF00F⟩, by simp [opcodeRows, opcodeRowsGroup8], rfl, selects_nibble _ 0x8 0x2 _ _ _ (by simp [encode]) (by simp [encode]) (by decide)⟩
theorem xorReg (x y : Reg) : Statement (.xorReg x y) :=
  ⟨⟨13, 0xF00F, 0x8003, 0xF00F⟩, by simp [opcodeRows, opcodeRowsGroup8], rfl, selects_nibble _ 0x8 0x3 _ _ _ (by simp [encode]) (by simp [encode]) (by decide)⟩
theorem addReg (x y : Reg) : Statement (.addReg x y) :=
  ⟨⟨14, 0xF00F, 0x8004, 0xF00F⟩, by simp [opcodeRows, opcodeRowsGroup8], rfl, selects_nibble _ 0x8 0x4 _ _ _ (by simp [encode]) (by simp [encode]) (by decide)⟩
theorem sub (x y : Reg) : Statement (.sub x y) :=
  ⟨⟨15, 0xF00F, 0x8005, 0xF00F⟩, by simp [opcodeRows, opcodeRowsGroup8], rfl, selects_nibble _ 0x8 0x5 _ _ _ (by simp [encode]) (by simp [encode]) (by decide)⟩
theorem shr (x y : Reg) : Statement (.shr x y) :=
  ⟨⟨16, 0xF00F, 0x8006, 0xF00F⟩, by simp [opcodeRows, opcodeRowsGroup8], rfl, selects_nibble _ 0x8 0x6 _ _ _ (by simp [encode]) (by simp [encode]) (by decide)⟩
theorem subn (x y : Reg) : Statement (.subn x y) :=
  ⟨⟨17, 0xF00F, 0x8007, 0xF00F⟩, by simp [opcodeRows, opcodeRowsGroup8], rfl, selects_nibble _ 0x8 0x7 _ _ _ (by simp [encode]) (by simp [encode]) (by decide)⟩
theorem shl (x y : Reg) : Statement (.shl x y) :=
  ⟨⟨18, 0xF00F, 0x800E, 0xF00F⟩, by simp [opcodeRows, opcodeRowsGroup8], rfl, selects_nibble _ 0x8 0xe _ _ _ (by simp [encode]) (by simp [encode]) (by decide)⟩
theorem sneReg (x y : Reg) (ign : Nibble) : Statement (.sneReg x y ign) :=
  ⟨⟨19, 0xF000, 0x9000, 0xF00F⟩, by simp [opcodeRows, opcodeRowsMiddle], rfl, selects_group _ 0x9 _ _ _ (by simp [encode]) (by decide)⟩
theorem ldI (nnn : Addr) : Statement (.ldI nnn) :=
  ⟨⟨20, 0xF000, 0xA000, 0xF000⟩, by simp [opcodeRows, opcodeRowsMiddle], rfl, selects_group _ 0xa _ _ _ (by simp [encode]) (by decide)⟩
theorem jpV0 (nnn : Addr) : Statement (.jpV0 nnn) :=
  ⟨⟨21, 0xF000, 0xB000, 0xF000⟩, by simp [opcodeRows, opcodeRowsMiddle], rfl, selects_group _ 0xb _ _ _ (by simp [encode]) (by decide)⟩
theorem rnd (x : Reg) (nn : Byte) : Statement (.rnd x nn) :=
  ⟨⟨22, 0xF000, 0xC000, 0xF000⟩, by simp [opcodeRows, opcodeRowsMiddle], rfl, selects_group _ 0xc _ _ _ (by simp [encode]) (by decide)⟩
theorem drw (x y : Reg) (n : Nibble) : Statement (.drw x y n) :=
  ⟨⟨23, 0xF000, 0xD000, 0xF000⟩, by simp [opcodeRows, opcodeRowsMiddle], rfl, selects_group _ 0xd _ _ _ (by simp [encode]) (by decide)⟩
theorem skp (x : Reg) : Statement (.skp x) :=
  ⟨⟨24, 0xF0FF, 0xE09E, 0xF0FF⟩, by simp [opcodeRows, opcodeRowsMiddle], rfl, selects_byte _ 0xe 0x9e _ _ _ (by simp [encode]) (by simp [encode]) (by decide)⟩
theorem sknp (x : Reg) : Statement (.sknp x) :=
  ⟨⟨25, 0xF0FF, 0xE0A1, 0xF0FF⟩, by simp [opcodeRows, opcodeRowsMiddle], rfl, selects_byte _ 0xe 0xa1 _ _ _ (by simp [encode]) (by simp [encode]) (by decide)⟩
theorem ldVxDt (x : Reg) : Statement (.ldVxDt x) :=
  ⟨⟨26, 0xF0FF, 0xF007, 0xF0FF⟩, by simp [opcodeRows, opcodeRowsGroupF], rfl, selects_byte _ 0xf 0x7 _ _ _ (by simp [encode]) (by simp [encode]) (by decide)⟩
theorem ldVxK (x : Reg) : Statement (.ldVxK x) :=
  ⟨⟨27, 0xF0FF, 0xF00A, 0xF0FF⟩, by simp [opcodeRows, opcodeRowsGroupF], rfl, selects_byte _ 0xf 0xa _ _ _ (by simp [encode]) (by simp [encode]) (by decide)⟩
theorem ldDtVx (x : Reg) : Statement (.ldDtVx x) :=
  ⟨⟨28, 0xF0FF, 0xF015, 0xF0FF⟩, by simp [opcodeRows, opcodeRowsGroupF], rfl, selects_byte _ 0xf 0x15 _ _ _ (by simp [encode]) (by simp [encode]) (by decide)⟩
theorem ldStVx (x : Reg) : Statement (.ldStVx x) :=
  ⟨⟨29, 0xF0FF, 0xF018, 0xF0FF⟩, by simp [opcodeRows, opcodeRowsGroupF], rfl, selects_byte _ 0xf 0x18 _ _ _ (by simp [encode]) (by simp [encode]) (by decide)⟩
theorem addI (x : Reg) : Statement (.addI x) :=
  ⟨⟨30, 0xF0FF, 0xF01E, 0xF0FF⟩, by simp [opcodeRows, opcodeRowsGroupF], rfl, selects_byte _ 0xf 0x1e _ _ _ (by simp [encode]) (by simp [encode]) (by decide)⟩
theorem ldF (x : Reg) : Statement (.ldF x) :=
  ⟨⟨31, 0xF0FF, 0xF029, 0xF0FF⟩, by simp [opcodeRows, opcodeRowsGroupF], rfl, selects_byte _ 0xf 0x29 _ _ _ (by simp [encode]) (by simp [encode]) (by decide)⟩
theorem ldB (x : Reg) : Statement (.ldB x) :=
  ⟨⟨32, 0xF0FF, 0xF033, 0xF0FF⟩, by simp [opcodeRows, opcodeRowsGroupF], rfl, selects_byte _ 0xf 0x33 _ _ _ (by simp [encode]) (by simp [encode]) (by decide)⟩
theorem stRegs (x : Reg) : Statement (.stRegs x) :=
  ⟨⟨33, 0xF0FF, 0xF055, 0xF0FF⟩, by simp [opcodeRows, opcodeRowsGroupF], rfl, selects_byte _ 0xf 0x55 _ _ _ (by simp [encode]) (by simp [encode]) (by decide)⟩
theorem ldRegs (x : Reg) : Statement (.ldRegs x) :=
  ⟨⟨34, 0xF0FF, 0xF065, 0xF0FF⟩, by simp [opcodeRows, opcodeRowsGroupF], rfl, selects_byte _ 0xf 0x65 _ _ _ (by simp [encode]) (by simp [encode]) (by decide)⟩

end Sys2Proof.Laws.RowSelects
end

