-- ==== Sys2Proof/Laws/Step.lean ====
section
/-! SUPPORT. What a Step can do, said once (`40_step_dispatch.md` R120, R121), and that every meaning answers a next
state. -/

namespace Sys2Proof.Machine

/-- The fetched word, byte by byte (R122). -/
theorem State.fetchWord_eq (s : State) :
    s.fetchWord = wordOfBytes (s.mem.read s.pc.toNat) (s.mem.read (s.pc.toNat + 1)) := rfl

/-- Every meaning answers a next state: no instruction can fail (R129, R131). -/
theorem exec_answers (i : Instr) (s : State) : ∃ t, exec i s = .next t := by
  cases i <;> try exact ⟨_, rfl⟩
  case ldVxK x =>
    simp only [exec, execLdVxK]
    split <;> exact ⟨_, rfl⟩

theorem step_of_halted {s : State} (h : s.halted = true) : step s = .next s := by simp [step, h]

theorem step_of_invalid {s : State} {why : Invalid} (h : s.halted = false) (hd : decode s.fetchWord = .invalid why) :
    step s = .next (s.raiseDecodeError s.fetchWord) := by simp [step, h, hd]

theorem step_of_instr {s t : State} {i : Instr} (h : s.halted = false) (hd : decode s.fetchWord = .instr i)
    (hx : exec i s.advance = .next t) : step s = .next (t.finish i) := by simp [step, h, hd, hx, completeStep]

/-- A Step answers a next state from every state (R129). -/
theorem step_answers (s : State) : ∃ t, step s = .next t := by
  cases hh : s.halted with
  | true => exact ⟨_, step_of_halted hh⟩
  | false =>
    cases hd : decode s.fetchWord with
    | invalid why => exact ⟨_, step_of_invalid hh hd⟩
    | instr i =>
      obtain ⟨t, ht⟩ := exec_answers i s.advance
      exact ⟨_, step_of_instr hh hd ht⟩

/-- Everything a Step can do: nothing when halted, the decode error, or one instruction and the two writes after it. -/
theorem step_cases {s t : State} (h : step s = .next t) :
    (s.halted = true ∧ t = s) ∨
    (s.halted = false ∧ (∃ why, decode s.fetchWord = .invalid why) ∧ t = s.raiseDecodeError s.fetchWord) ∨
    (s.halted = false ∧ ∃ i u, decode s.fetchWord = .instr i ∧ exec i s.advance = .next u ∧ t = u.finish i) := by
  cases hh : s.halted with
  | true =>
    rw [step_of_halted hh] at h
    exact .inl ⟨rfl, (Host.Outcome.next.inj h).symm⟩
  | false =>
    cases hd : decode s.fetchWord with
    | invalid why =>
      rw [step_of_invalid hh hd] at h
      exact .inr (.inl ⟨rfl, ⟨why, rfl⟩, (Host.Outcome.next.inj h).symm⟩)
    | instr i =>
      obtain ⟨u, hu⟩ := exec_answers i s.advance
      rw [step_of_instr hh hd hu] at h
      exact .inr (.inr ⟨rfl, i, u, rfl, hu, (Host.Outcome.next.inj h).symm⟩)

/-! ## The host's way to place an instruction -/

/-- The word placed is the word fetched. -/
theorem State.withFetchWord_fetchWord (s : State) (nbits w : Nat) :
    (s.withFetchWord nbits w).fetchWord = tableWord nbits w := by
  have h0 := Memory.read_writeBytes_inside s.mem s.pc.toNat (bytesOfWord (tableWord nbits w)) 0 _ rfl (by simp [bytesOfWord, memSize])
  have h1 := Memory.read_writeBytes_inside s.mem s.pc.toNat (bytesOfWord (tableWord nbits w)) 1 _ rfl (by simp [bytesOfWord, memSize])
  rw [Nat.add_zero] at h0
  simp only [State.fetchWord_eq, State.withFetchWord, h0, h1]
  exact wordOfBytes_bytes _

end Sys2Proof.Machine
end

