-- ==== Sys2Proof/Tests/Slice0.lean ====
section
/-! SUPPORT. The model's own tests. Decoding tests are words written out from `30_encoding.md` R91, R95; step tests are
vectors of `95_test_vectors.md` (T and S numbers); the witnesses meet the hypotheses of the obligations, clause by
clause. -/

namespace Sys2Proof.Tests

open Sys2Proof Sys2Proof.Machine Sys2Proof.Safety

set_option Elab.async false -- one theorem at a time: fewer threads, less memory

/-! ## Helpers -/

/-- The reset state with registers set, and `I`. -/
def regs (l : List (Reg × Byte)) (i : Word := 0) : State :=
  { l.foldl (fun s p => s.writeV p.1 p.2) State.reset with iReg := i }

/-- The reset state with key masks. -/
def keys (prev cur : Word) : State := { State.reset with keysPrev := prev, keysCur := cur }

/-- One Step of the word `w` placed at `pc` ends in a state with the property. -/
def ends (s : State) (w : Nat) (p : State → Bool) : Bool :=
  match step (s.withFetchWord 16 w) with
  | .next t => p t
  | _ => false

/-- Serve requests from a state and end in a state with the property. -/
def serves (rs : List Request) (s : State) (p : State → Bool) : Bool :=
  match serveAll rs s with
  | .next t => p t
  | _ => false

/-- A core halted by the word 0x0000 at 0x200. -/
def haltedState : State := State.reset.raiseDecodeError 0

/-! ## Well-formed terms (R100, R101) -/

/-- CLS with an ignored bit set is refused. -/
theorem test_wf_cls : (Instr.cls 1).wellFormed = false ∧ (Instr.cls 0).wellFormed = true := by decide
/-- RET with an ignored bit set is refused. -/
theorem test_wf_ret : (Instr.ret 0xA).wellFormed = false ∧ (Instr.ret 0).wellFormed = true := by decide
/-- SE Vx, Vy with an ignored bit set is refused. -/
theorem test_wf_seReg : (Instr.seReg 1 2 7).wellFormed = false ∧ (Instr.seReg 1 2 0).wellFormed = true := by decide
/-- SNE Vx, Vy with an ignored bit set is refused. -/
theorem test_wf_sneReg : (Instr.sneReg 1 2 8).wellFormed = false ∧ (Instr.sneReg 1 2 0).wellFormed = true := by decide

/-! ## Decoding: a word for every constructor -/

/-- One word of each format and group, bit by bit: op[15:12], op[11:8], op[7:4], op[3:0]. -/
theorem test_decode_bits :
    decode 0b0000_0000_1110_0000 = .instr (.cls 0) ∧ decode 0b0010_1010_1011_1100 = .instr (.call 0xABC) ∧
    decode 0b0101_0001_0010_0000 = .instr (.seReg 1 2 0) ∧ decode 0b0110_1010_0000_0101 = .instr (.ldImm 0xA 5) ∧
    decode 0b1000_0001_0010_1110 = .instr (.shl 1 2) ∧ decode 0b1101_0011_0100_0101 = .instr (.drw 3 4 5) ∧
    decode 0b1110_0111_1001_1110 = .instr (.skp 7) ∧ decode 0b1111_0011_0011_0011 = .instr (.ldB 3) := by decide

/-- Control flow: 0-EE, 1NNN, 2NNN, 3XNN, 4XNN, 5XY-, 9XY-, BNNN. -/
theorem test_decode_control :
    decode 0x00EE = .instr (.ret 0) ∧ decode 0x1ABC = .instr (.jp 0xABC) ∧ decode 0x2300 = .instr (.call 0x300) ∧
    decode 0x3A07 = .instr (.seImm 0xA 7) ∧ decode 0x4F00 = .instr (.sneImm 0xF 0) ∧
    decode 0x5127 = .instr (.seReg 1 2 7) ∧ decode 0x9AB0 = .instr (.sneReg 0xA 0xB 0) ∧
    decode 0xB2FE = .instr (.jpV0 0x2FE) := by decide

/-- Registers and ALU: 6XNN, 7XNN, 8XY0 to 8XY7, 8XYE, CXNN. -/
theorem test_decode_alu :
    decode 0x6FAA = .instr (.ldImm 0xF 0xAA) ∧ decode 0x7003 = .instr (.addImm 0 3) ∧
    decode 0x8AB0 = .instr (.ldReg 0xA 0xB) ∧ decode 0x8121 = .instr (.orReg 1 2) ∧
    decode 0x8122 = .instr (.andReg 1 2) ∧ decode 0x8123 = .instr (.xorReg 1 2) ∧
    decode 0x8124 = .instr (.addReg 1 2) ∧ decode 0x8125 = .instr (.sub 1 2) ∧ decode 0x8126 = .instr (.shr 1 2) ∧
    decode 0x8127 = .instr (.subn 1 2) ∧ decode 0x812E = .instr (.shl 1 2) ∧ decode 0xC10F = .instr (.rnd 1 0x0F) := by
  decide

/-- Index register and memory: ANNN, FX1E, FX29, FX33, FX55, FX65. -/
theorem test_decode_index :
    decode 0xAFFF = .instr (.ldI 0xFFF) ∧ decode 0xF11E = .instr (.addI 1) ∧ decode 0xF129 = .instr (.ldF 1) ∧
    decode 0xF333 = .instr (.ldB 3) ∧ decode 0xFF55 = .instr (.stRegs 0xF) ∧ decode 0xF265 = .instr (.ldRegs 2) := by
  decide

/-- Display, timers, keys: 0-E0, DXYN, EX9E, EXA1, FX07, FX0A, FX15, FX18. -/
theorem test_decode_devices :
    decode 0x07E0 = .instr (.cls 7) ∧ decode 0xD125 = .instr (.drw 1 2 5) ∧ decode 0xEF9E = .instr (.skp 0xF) ∧
    decode 0xE1A1 = .instr (.sknp 1) ∧ decode 0xF307 = .instr (.ldVxDt 3) ∧ decode 0xF50A = .instr (.ldVxK 5) ∧
    decode 0xF315 = .instr (.ldDtVx 3) ∧ decode 0xF318 = .instr (.ldStVx 3) := by decide

/-- Invalid words, by name: T240 to T254. -/
theorem test_decode_invalid :
    decode 0x0000 = .invalid (.group0 0x00) ∧ decode 0x00E1 = .invalid (.group0 0xE1) ∧
    decode 0x0123 = .invalid (.group0 0x23) ∧ decode 0x8008 = .invalid (.group8 0x8) ∧
    decode 0x8129 = .invalid (.group8 0x9) ∧ decode 0x800F = .invalid (.group8 0xF) ∧
    decode 0xE19F = .invalid (.groupE 0x9F) ∧ decode 0xE0A2 = .invalid (.groupE 0xA2) ∧
    decode 0xF075 = .invalid (.groupF 0x75) ∧ decode 0xFFFF = .invalid (.groupF 0xFF) := by decide

/-- A list of bytes: the rest comes back, a lone byte is no instruction (R90). -/
theorem test_decode_bytes :
    decodeBytes [0x60, 0x05, 0x70] = .instr (.ldImm 0 5) [0x70] ∧ decodeBytes [0x60] = .tooShort ∧
    decodeBytes [0x00, 0xFD] = .invalid (.group0 0xFD) ∧ decodeTableWord 16 0x7003 = some (.addImm 0 3) := by decide

/-! ## Single steps -/

/-- T10. -/
theorem test_jp : ends .reset 0x1ABC (fun t => t.pc == 0x0ABC) = true := by decide +kernel
/-- T14: the slot gets the full `a + 2` and `SP` wraps. -/
theorem test_call_wraps : ends { State.reset with pc := 0xFFE, sp := 15 } 0x2FFE
    (fun t => t.stack[15] == 0x1000 && t.sp == 0 && t.pc == 0xFFE) = true := by decide +kernel
/-- T16: underflow. -/
theorem test_ret_wraps : ends { State.reset with stack := State.reset.stack.set 15 0xABC } 0x00EE
    (fun t => t.sp == 15 && t.pc == 0xABC) = true := by decide +kernel
/-- T18: the ignored bits of RET. -/
theorem test_ret_ignored_bits : ends { State.reset with sp := 1, stack := State.reset.stack.set 0 0x222 } 0x0AEE
    (fun t => t.sp == 0 && t.pc == 0x222 && t.stepResult == .ok) = true := by decide +kernel
/-- S5. -/
theorem test_seImm : ends (regs [(0xA, 7)]) 0x3A07 (fun t => t.pc == 0x204) = true ∧
    ends (regs [(0xA, 8)]) 0x3A07 (fun t => t.pc == 0x202) = true := by decide +kernel
/-- S5. -/
theorem test_sneImm : ends (regs [(0xA, 7)]) 0x4A07 (fun t => t.pc == 0x202) = true ∧
    ends (regs [(0xA, 8)]) 0x4A07 (fun t => t.pc == 0x204) = true := by decide +kernel
/-- S5, T22. -/
theorem test_seReg : ends (regs [(1, 3), (2, 3)]) 0x5127 (fun t => t.pc == 0x204) = true ∧
    ends (regs [(1, 3), (2, 4)]) 0x5120 (fun t => t.pc == 0x202) = true := by decide +kernel
/-- S5. -/
theorem test_sneReg : ends (regs [(1, 1), (2, 2)]) 0x9120 (fun t => t.pc == 0x204) = true ∧
    ends (regs [(1, 3), (2, 3)]) 0x9120 (fun t => t.pc == 0x202) = true := by decide +kernel
/-- T4: the 16-bit wrap of a taken skip. -/
theorem test_skip_wraps : ends { regs [(0, 0x12)] with pc := 0xFFFE } 0x3012 (fun t => t.pc == 0x0002) = true := by
  decide +kernel
/-- T24: the sum is not masked to 12 bits. -/
theorem test_jpV0 : ends (regs [(0, 0xFF)]) 0xBFFF (fun t => t.pc == 0x10FE) = true := by decide +kernel
/-- T25: `V[0]` is used, never `V[X]`. -/
theorem test_jpV0_register : ends (regs [(3, 0x55)]) 0xB300 (fun t => t.pc == 0x300) = true := by decide +kernel

/-- T31. -/
theorem test_ldImm : ends .reset 0x6FAA (fun t => t.readV 0xF == 0xAA) = true := by decide +kernel
/-- T33: no flag. -/
theorem test_addImm : ends (regs [(0, 0xFF), (0xF, 1)]) 0x7001 (fun t => t.readV 0 == 0 && t.readV 0xF == 1) = true := by
  decide +kernel
/-- T36. -/
theorem test_ldReg : ends (regs [(0xA, 1), (0xB, 0x99)]) 0x8AB0 (fun t => t.readV 0xA == 0x99 && t.readV 0xB == 0x99) =
    true := by decide +kernel
/-- T38, T39, T40. -/
theorem test_logic :
    ends (regs [(1, 0xF0), (2, 0x3C), (0xF, 1)]) 0x8121 (fun t => t.readV 1 == 0xFC && t.readV 0xF == 1) = true ∧
    ends (regs [(1, 0xF0), (2, 0x3C), (0xF, 1)]) 0x8122 (fun t => t.readV 1 == 0x30 && t.readV 0xF == 1) = true ∧
    ends (regs [(1, 0xF0), (2, 0x3C), (0xF, 1)]) 0x8123 (fun t => t.readV 1 == 0xCC && t.readV 0xF == 1) = true := by
  decide +kernel
/-- T51, T52. -/
theorem test_addReg :
    ends (regs [(1, 0xFF), (2, 0xFF)]) 0x8124 (fun t => t.readV 1 == 0xFE && t.readV 0xF == 1) = true ∧
    ends (regs [(1, 0x80), (2, 0x7F)]) 0x8124 (fun t => t.readV 1 == 0xFF && t.readV 0xF == 0) = true := by decide +kernel
/-- T56, T58: `VF` as destination and as source. -/
theorem test_addReg_flag : ends (regs [(0xF, 0xF0), (1, 0x20)]) 0x8F14 (fun t => t.readV 0xF == 1) = true ∧
    ends (regs [(0xF, 3), (1, 0xFE)]) 0x81F4 (fun t => t.readV 1 == 1 && t.readV 0xF == 1) = true := by decide +kernel
/-- T61, T63. -/
theorem test_sub : ends (regs [(1, 5), (2, 7)]) 0x8125 (fun t => t.readV 1 == 0xFE && t.readV 0xF == 0) = true ∧
    ends (regs [(1, 7), (2, 7)]) 0x8125 (fun t => t.readV 1 == 0 && t.readV 0xF == 1) = true := by decide +kernel
/-- T67, T70. -/
theorem test_sub_flag : ends (regs [(0xF, 9), (1, 3)]) 0x8F15 (fun t => t.readV 0xF == 1) = true ∧
    ends (regs [(0xF, 1)]) 0x81F5 (fun t => t.readV 1 == 0xFF && t.readV 0xF == 0) = true := by decide +kernel
/-- T72, T75. -/
theorem test_subn : ends (regs [(1, 5), (2, 7)]) 0x8127 (fun t => t.readV 1 == 2 && t.readV 0xF == 1) = true ∧
    ends (regs [(1, 0xFF)]) 0x8127 (fun t => t.readV 1 == 1 && t.readV 0xF == 0) = true := by decide +kernel
/-- T77, T78. -/
theorem test_subn_flag : ends (regs [(0xF, 9), (1, 3)]) 0x8F17 (fun t => t.readV 0xF == 0) = true ∧
    ends (regs [(1, 5), (0xF, 1)]) 0x81F7 (fun t => t.readV 1 == 0xFC && t.readV 0xF == 0) = true := by decide +kernel
/-- T94, T97. -/
theorem test_shr :
    ends (regs [(1, 5), (2, 0xF0)]) 0x8126 (fun t => t.readV 1 == 2 && t.readV 0xF == 1 && t.readV 2 == 0xF0) = true ∧
    ends (regs [(0xF, 3)]) 0x8F06 (fun t => t.readV 0xF == 1) = true := by decide +kernel
/-- T105, T107. -/
theorem test_shl : ends (regs [(1, 0x81), (2, 0x0F)]) 0x812E (fun t => t.readV 1 == 2 && t.readV 0xF == 1) = true ∧
    ends (regs [(0xF, 0x81)]) 0x8F0E (fun t => t.readV 0xF == 1) = true := by decide +kernel
/-- T95 and T106 under `SHIFT_SOURCE = VY`. -/
theorem test_shift_source_vy : ((regs [(1, 4), (2, 3)]).shiftRight .vy 1 2).readV 1 = 1 ∧
    ((regs [(1, 4), (2, 3)]).shiftRight .vy 1 2).readV 0xF = 1 ∧
    ((regs [(1, 1), (2, 0xC0)]).shiftLeft .vy 1 2).readV 1 = 0x80 ∧
    ((regs [(1, 1), (2, 0xC0)]).shiftLeft .vy 1 2).readV 0xF = 1 := by decide +kernel
/-- T122: with an empty mask every draw gives 0. -/
theorem test_rnd : ∀ draw : Byte, draw &&& 0 = 0 := by decide

/-- T131. -/
theorem test_ldI : ends (regs [] 0xFFFF) 0xA000 (fun t => t.iReg == 0) = true := by decide +kernel
/-- T133, T135. -/
theorem test_addI : ends (regs [(1, 1)] 0xFFFF) 0xF11E (fun t => t.iReg == 0 && t.readV 0xF == 0) = true ∧
    ends (regs [(0xF, 1)] 0x10) 0xFF1E (fun t => t.iReg == 0x11 && t.readV 0xF == 1) = true := by decide +kernel
/-- T138, T142. -/
theorem test_ldF : ends (regs [(1, 0x0A)]) 0xF129 (fun t => t.iReg == 0x32) = true ∧
    ends (regs [(1, 0xFF)] 0xFFFF) 0xF129 (fun t => t.iReg == 0x4FB) = true := by decide +kernel
/-- T150, T154. -/
theorem test_ldB :
    ends (regs [(3, 137)] 0x300) 0xF333
      (fun t => t.mem.read 0x300 == 1 && t.mem.read 0x301 == 3 && t.mem.read 0x302 == 7 && t.iReg == 0x300) = true ∧
    ends (regs [(3, 254)] 0xFFF) 0xF333
      (fun t => t.mem.read 0xFFF == 2 && t.mem.read 0x000 == 5 && t.mem.read 0x001 == 4) = true := by decide +kernel
/-- T158, T160. -/
theorem test_stRegs :
    ends (regs [(0, 0xAB), (1, 0xCD)] 0x400) 0xF055 (fun t => t.mem.read 0x400 == 0xAB && t.mem.read 0x401 == 0) = true ∧
    ends (regs [(0, 1), (1, 2), (2, 3)] 0x1FFF) 0xF255
      (fun t => t.mem.read 0xFFF == 1 && t.mem.read 0 == 2 && t.mem.read 1 == 3 && t.mem.read 2 == 0x90) = true := by
  decide +kernel
/-- T162, T163: the glyph bytes and the last register loaded. -/
theorem test_ldRegs :
    ends (regs []) 0xF465 (fun t => t.readV 0 == 0xF0 && t.readV 1 == 0x90 && t.readV 4 == 0xF0 && t.readV 5 == 0) = true ∧
    ends (regs [(1, 0x99)] 5) 0xF065 (fun t => t.readV 0 == 0x20 && t.readV 1 == 0x99) = true := by decide +kernel

/-- T187. -/
theorem test_cls : ends { regs [(0xF, 1)] with disp := (State.reset.disp.flip 0 0).flip 63 31 } 0x00E0
    (fun t => !t.disp.cell 0 0 && !t.disp.cell 63 31 && t.readV 0xF == 1 && !t.drawFlag) = true := by decide +kernel
/-- T170: clipped right and bottom. -/
theorem test_drw_clips : ends (regs [(1, 60), (2, 30)]) 0xD125
    (fun t => t.disp.cell 63 30 && t.disp.cell 60 31 && !t.disp.cell 61 31 && !t.disp.cell 60 0 && t.readV 0xF == 0) =
    true := by decide +kernel
/-- T184: a collision, and a sprite row dropped. -/
theorem test_drw_collides :
    ends { (regs [(1, 62), (2, 31)] 0x300).store 0x300 0xFF with disp := State.reset.disp.flip 63 31 } 0xD122
      (fun t => t.disp.cell 62 31 && !t.disp.cell 63 31 && !t.disp.cell 62 0 && t.readV 0xF == 1) = true := by decide +kernel
/-- T179: `VF` is cleared before the coordinates are read. -/
theorem test_drw_flag_operand : ends ((regs [(0xF, 9), (1, 3)] 0x300).store 0x300 0x80) 0xDF11
    (fun t => t.disp.cell 0 3 && !t.disp.cell 9 3 && t.readV 0xF == 0) = true := by decide +kernel

/-- T200, T202, T203. -/
theorem test_timers :
    ends { regs [(3, 1)] with dt := 0x2A } 0xF307 (fun t => t.readV 3 == 0x2A && t.dt == 0x2A) = true ∧
    ends { regs [(3, 0x3C)] with dt := 5 } 0xF315 (fun t => t.dt == 0x3C) = true ∧
    ends (regs [(3, 5)]) 0xF318 (fun t => t.st == 5 && t.dt == 0) = true := by decide +kernel
/-- T210, T213. -/
theorem test_skp : ends ((keys 0 0x0008).writeV 1 0x13) 0xE19E (fun t => t.pc == 0x204) = true ∧
    ends ((keys 0x0020 0).writeV 1 5) 0xE19E (fun t => t.pc == 0x202 && t.keysPrev == 0) = true := by decide +kernel
/-- T214, T215. -/
theorem test_sknp : ends ((keys 0 0x0008).writeV 1 0x13) 0xE1A1 (fun t => t.pc == 0x202) = true ∧
    ends ((keys 0 0xFFDF).writeV 1 0x25) 0xE1A1 (fun t => t.pc == 0x204) = true := by decide +kernel
/-- T218: a key just pressed is no release. -/
theorem test_ldVxK_waits : ends ((keys 0 0x0080).writeV 5 0xEE) 0xF50A
    (fun t => t.pc == 0x200 && t.readV 5 == 0xEE && t.keysPrev == 0x0080 && t.stepResult == .ok) = true := by decide +kernel
/-- T219, T220. -/
theorem test_ldVxK_resolves : ends (keys 0x0090 0) 0xF50A (fun t => t.readV 5 == 4 && t.pc == 0x202) = true ∧
    ends (keys 0x8001 1) 0xF50A (fun t => t.readV 5 == 0x0F && t.keysPrev == 1) = true := by decide +kernel

/-- T1: the low byte of the word comes from address 0. -/
theorem test_fetch_wraps : serves [.step] { State.reset.store 0xFFF 0x6B with pc := 0xFFF }
    (fun t => t.readV 0xB == 0xF0 && t.pc == 0x1001) = true := by decide +kernel
/-- T3: an odd `pc`. -/
theorem test_fetch_odd : serves [.step] { (State.reset.store 0x201 0x6C).store 0x202 0x33 with pc := 0x201 }
    (fun t => t.readV 0xC == 0x33 && t.pc == 0x203) = true := by decide +kernel
/-- T256: the decode error at the end of the address space. -/
theorem test_decode_error : serves [.step] { State.reset with pc := 0xFFFF, drawFlag := true, keysCur := 5 }
    (fun t => t.halted && t.errOpcode == 0x00F0 && t.errPc == 0xFFFF && t.pc == 1 && !t.drawFlag && t.keysPrev == 5) =
    true := by decide +kernel
/-- T258, Step 3: a halted core changes nothing and answers the same error. -/
theorem test_halted_step : serves [.setKeys 3, .step] haltedState
    (fun t => t.pc == 0x202 && t.keysPrev == 0 && t.keysCur == 3 && t.stepResult == .decodeError 0) = true := by
  decide +kernel
/-- T204 (its first three Ticks), T206. -/
theorem test_tick : serves [.tick, .tick, .tick] { State.reset with dt := 3, st := 1 } (fun t => t.dt == 0 && t.st == 0) =
    true ∧ serves [.tick] { haltedState with dt := 3 } (fun t => t.dt == 2) = true := by decide +kernel
/-- T271, T274. -/
theorem test_load_and_reset :
    serves [.load [0x60, 0x05]] .reset (fun t => t.mem.read 0x200 == 0x60 && t.mem.read 0x201 == 5 && t.pc == 0x200) = true ∧
    serves [.reset 700] (State.reset.store 0 0x12) (fun t => t.mem.read 0 == 0xF0) = true := by decide +kernel
/-- R70: the last byte of the font table, and the first byte after it. -/
theorem test_reset_memory : State.reset.mem.read 0x04F = 0x80 ∧ State.reset.mem.read 0x050 = 0 := by decide
/-- The core's reset is the state of R300, and its step is the model's. -/
theorem test_core : Sys2Proof.core.reset = State.reset ∧ Sys2Proof.core.step = step := ⟨rfl, rfl⟩

/-! ## Witnesses: the hypotheses of the obligations can be met -/

/-- EncodeOfDecodeIsTheWord and OperandsAreTheBitsOfTheWord: a word that decodes. -/
theorem witness_decode : decode 0x0AEE = .instr (.ret 0xA) := by decide
/-- DecoderFollowsTheOpcodeMap and NoWordMatchesTwoRows: rows of the map that select a word. -/
theorem witness_rows : opcodeRows.length = 34 ∧ (∃ r ∈ opcodeRows, r.selects 0xD015 = true) ∧
    (∃ r ∈ opcodeRows, r.number = 1 ∧ r.selects 0x07E0 = true ∧ r.canonical 0x07E0 = false) ∧
    (∃ r ∈ opcodeRows, r.selects 0xFF65 = true ∧ r.number = 34) := by decide
/-- InvalidWordsAreExactlyThoseOfTheFourGroups: both sides of each group's boundary. -/
theorem witness_invalid_groups :
    decode 0x00DF = .invalid (.group0 0xDF) ∧ decode 0x00E0 = .instr (.cls 0) ∧ decode 0x00EF = .invalid (.group0 0xEF) ∧
    decode 0x8007 = .instr (.subn 0 0) ∧ decode 0x8008 = .invalid (.group8 8) ∧ decode 0x800D = .invalid (.group8 0xD) ∧
    decode 0x800E = .instr (.shl 0 0) ∧ decode 0xE09D = .invalid (.groupE 0x9D) ∧ decode 0xE0A1 = .instr (.sknp 0) ∧
    decode 0xF008 = .invalid (.groupF 8) ∧ decode 0xF065 = .instr (.ldRegs 0) ∧ decode 0xF066 = .invalid (.groupF 0x66) := by
  decide
/-- CanonicalEncodingsAndIgnoredBits: a canonical and another word. -/
theorem witness_canonical : decode 0x5120 = .instr (.seReg 1 2 0) ∧ (Instr.seReg 1 2 0).wellFormed = true ∧
    decode 0x5127 = .instr (.seReg 1 2 7) ∧ (Instr.seReg 1 2 7).wellFormed = false := by decide
/-- StepRunsTheDecodedInstruction, DecodeErrorEntryWritesExactlySix, StepReturnsOkOrDecodeError: the three cases. -/
theorem witness_step_cases : haltedState.halted = true ∧
    ((State.reset.withFetchWord 16 0x6005).halted = false ∧
      decode (State.reset.withFetchWord 16 0x6005).fetchWord = .instr (.ldImm 0 5)) ∧
    (State.reset.halted = false ∧ decode State.reset.fetchWord = .invalid (.group0 0)) := by decide
/-- The address and the word of StepRunsTheDecodedInstruction. -/
theorem witness_step_word : (0x6005 : Word) = wordOfBytes ((State.reset.withFetchWord 16 0x6005).mem.read 0x200)
    ((State.reset.withFetchWord 16 0x6005).mem.read 0x201) := by decide
/-- ExecutedStepWritesDrawFlagAndSnapshot: DRW, and an instruction that is not DRW. -/
theorem witness_draw_flag :
    decode (State.reset.withFetchWord 16 0xD015).fetchWord = .instr (.drw 0 1 5) ∧
    ends State.reset 0xD015 (fun t => t.drawFlag) = true ∧
    ends { State.reset with drawFlag := true } 0x6005 (fun t => !t.drawFlag) = true := by decide +kernel
/-- StepNeverDecrementsTimersNorPollsKeys: Steps that do change a timer. -/
theorem witness_timer_changes : ends (regs [(3, 9)]) 0xF315 (fun t => t.dt != 0) = true ∧
    ends (regs [(3, 9)]) 0xF318 (fun t => t.st != 0) = true := by decide +kernel
/-- ProgramCounterAfterEachStep: both cases of the conditional forms are met above; here the wait at address 0 (T225),
the release at address 0 (T224), and the plain forms. -/
theorem witness_pc :
    ends { State.reset with pc := 0 } 0xF50A (fun t => t.pc == 0) = true ∧
    ends { keys 0x0200 0 with pc := 0 } 0xFF0A (fun t => t.pc == 2 && t.readV 0xF == 9) = true ∧
    ends { State.reset with pc := 0xFFFF } 0x6005 (fun t => t.pc == 1) = true := by decide +kernel
/-- RegistersChangeOnlyAsDestinationOrFlag: registers that an instruction may not write. -/
theorem witness_may_not_write : mayWriteReg (.addReg 1 2) 2 = false ∧ mayWriteReg (.ldRegs 14) 15 = false ∧
    mayWriteReg (.drw 1 2 3) 14 = false ∧ mayWriteReg (.stRegs 15) 15 = false ∧ mayWriteReg (.addReg 1 2) 15 = true := by
  decide
/-- The row premises of the whole-machine statements. -/
theorem witness_row_premises : (Instr.ldB 0).row ∉ [20, 30, 31] ∧ (Instr.jp 0).row ∉ [2, 4] ∧ (Instr.ret 0).row ≠ 4 ∧
    (Instr.ldRegs 15).row ∉ [32, 33] ∧ (Instr.ldImm 0 0).row ∉ [1, 23] ∧ (Instr.cls 0).row ≠ 23 ∧
    (Instr.ldStVx 0).row ≠ 28 ∧ (Instr.ldDtVx 0).row ≠ 29 ∧ (Instr.skp 0).row ≠ 27 ∧ (Instr.rnd 0 0).row = 22 ∧
    (Instr.drw 0 0 0).row ≠ 22 := by decide
/-- StepKeepsTheInvariant and EveryRunOfRequestsKeepsTheInvariant: a state that is not the reset state. -/
theorem witness_invariant : Inv (State.reset.withFetchWord 16 0x6005) :=
  ⟨by decide, ⟨fun h => absurd h (by decide), by decide, by decide, by decide⟩⟩
/-- The invariant of a halted state. -/
theorem witness_invariant_halted : Inv haltedState :=
  ⟨by decide, ⟨fun _ => ⟨.group0 0, by decide⟩, by decide, by decide, by decide⟩⟩
/-- SixteenMostRecentReturnAddressesSurvive: 17 calls and 16 returns, and no return. -/
theorem witness_calls : 16 ≤ (List.replicate 17 ((0x202 : Word), (0x200 : Addr))).length ∧ (16 : Nat) ≤ 16 ∧
    (0 : Nat) ≤ (List.replicate 17 ((0x202 : Word), (0x200 : Addr))).length := by decide
/-- AddAndSubtractWriteResultThenFlag and ShiftsWriteResultThenTheBitShiftedOut: the numbers of the operands. -/
theorem witness_operands : 255 = ((regs [(1, 0xFF), (2, 0x80)]).readV 1).toNat ∧
    128 = ((regs [(1, 0xFF), (2, 0x80)]).readV 2).toNat := by decide
/-- The block moves: the least and the greatest `X`, with the registers at the boundary; StoredWordIsFetchedBigEndian. -/
theorem witness_block : (0 : Reg).toNat ≤ (0 : Reg).toNat ∧ (15 : Reg).toNat ≤ (15 : Reg).toNat ∧
    ¬((15 : Reg).toNat ≤ (14 : Reg).toNat) ∧ 1 ≤ (1 : Reg).toNat := by decide
/-- `memSameOutside`: an address outside the bytes of a store that wraps, and one inside. -/
theorem witness_outside : (∀ j < 16, (regs [] 0xFFF8).dataAddr j % memSize ≠ 0x008 % memSize) ∧
    (regs [] 0xFFF8).dataAddr 15 % memSize = 0x007 := by decide
/-- DrwXorsEachCellAndReportsCollision: the coordinates, with `VF` as an operand and without. -/
theorem witness_coordinates :
    (0 : Nat) = (if (15 : Reg) = 15 then 0 else ((regs [(15, 9)]).readV 15).toNat % 64) ∧
    (63 : Nat) = (if (1 : Reg) = 15 then 0 else ((regs [(1, 255)]).readV 1).toNat % 64) ∧
    (31 : Nat) = (if (1 : Reg) = 15 then 0 else ((regs [(1, 255)]).readV 1).toNat % 32) := by decide
/-- KeyWaitTakesTheLeastReleasedKey: no edge. -/
theorem witness_no_edge : ∀ k < 16,
    ¬((keys 0x0080 0x0080).keysPrev.getLsbD k = true ∧ (keys 0x0080 0x0080).keysCur.getLsbD k = false) := by decide
/-- KeyWaitTakesTheLeastReleasedKey: the least key is 0, and the least key is 15. -/
theorem witness_least_key :
    ((keys 0x0001 0).keysPrev.getLsbD 0 = true ∧ (keys 0x0001 0).keysCur.getLsbD 0 = false) ∧
    ((keys 0x8001 1).keysPrev.getLsbD 15 = true ∧ (keys 0x8001 1).keysCur.getLsbD 15 = false ∧
      ∀ j < 15, ¬((keys 0x8001 1).keysPrev.getLsbD j = true ∧ (keys 0x8001 1).keysCur.getLsbD j = false)) := by decide
/-- KeyWaitHoldsAcrossRepeatedSteps: LD V5, K at `pc` with a key held. -/
theorem witness_key_wait : ((keys 8 8).withFetchWord 16 0xF50A).halted = false ∧
    decode ((keys 8 8).withFetchWord 16 0xF50A).fetchWord = .instr (.ldVxK 5) ∧ (8 : Word) &&& ~~~8 = 0 := by decide
/-- OneReleaseEdgeResolvesTheKeyWait: key 15 released while key 0 is held. -/
theorem witness_one_edge : (15 : Nat) < 16 ∧ ((keys 0x8001 1).withFetchWord 16 0xF50A).halted = false ∧
    decode ((keys 0x8001 1).withFetchWord 16 0xF50A).fetchWord = .instr (.ldVxK 5) ∧
    ∀ j < 16, ((keys 0x8001 1).keysPrev.getLsbD j = true ∧ (keys 0x8001 1).keysCur.getLsbD j = false) ↔ j = 15 := by decide
/-- LoadPlacesTheRomAndTruncates: the last byte that has room, and the two ends of what stays. -/
theorem witness_load : (3583 : Nat) < 3584 ∧ (List.replicate 3584 (0xAA : Byte))[3583]? = some 0xAA ∧
    (0x1FF < 0x200 ∨ 0x200 + ([0x60] : List Byte).length ≤ 0x1FF) ∧ 0x200 + ([0x60] : List Byte).length ≤ 0x201 := by
  decide +kernel
/-- OnlyResetEndsTheHalt: a halted state, and requests that are no Reset. -/
theorem witness_only_reset : haltedState.halted = true ∧
    ∀ rate, Request.reset rate ∉ [Request.load [0x60], .setKeys 3, .step, .tick, .read] := by
  constructor
  · decide
  · intro rate
    simp

/-- SimultaneousRequestsHaveAFixedOrder: a Reset with every other request; the loop's moment (SetKeys, Step, Tick); and
the moment with no request at all. -/
theorem witness_moments :
    (Moment.mk (some 500) (some [0x60]) (some 3) true true).reset = some 500 ∧
    (Moment.mk none none (some 3) true true).reset = none ∧ (Moment.mk none none none false false).reset = none := by decide
/-- R274: the LD V3, DT of the loop's moment reads the value before the Tick of that moment, and the Step sees the keys. -/
theorem test_loop_moment :
    (match serveMoment (Moment.mk none none (some 3) true true) ({ State.reset with dt := 7 }.withFetchWord 16 0xF307) with
      | .next t => t.readV 3 == 7 && t.dt == 6 && t.keysPrev == 3
      | _ => false) = true := by decide +kernel

/-! ## The terms of Safety.lean -/

/-- `safeStep`: a good step, and one with `VF` as the destination of an addition (R308). -/
theorem test_safe_step : safeStep (State.reset.withFetchWord 16 0x8124) = true ∧
    safeStep (State.reset.withFetchWord 16 0x8F14) = false ∧ safeStep State.reset = false := by decide
/-- `endOfRun`: a jump to itself (T12), a halted core. -/
theorem test_end_of_run : endOfRun (State.reset.withFetchWord 16 0x1200) = true ∧ endOfRun haltedState = true ∧
    endOfRun (State.reset.withFetchWord 16 0x1202) = false := by decide

end Sys2Proof.Tests
end

/-! # What every instruction leaves unchanged, and what it does not read (family `10_state.md`)

Each piece of state of R36 has few writers. `ExecFrame` says so once for all 34 instructions, and `exec_withUnreadOf`
says once that the fields no instruction reads make no difference; the obligations of the family follow from the two. -/

namespace Sys2Proof.Machine

open Sys2Proof.Safety

/-! ## What one instruction leaves unchanged (R131) -/

/-- The rows of R95 whose instruction may leave another `pc` than the advanced one: RET, JP, CALL, the skips, JP V0 and
LD Vx, K (R23). -/
def pcRows : List Nat := [2, 3, 4, 5, 6, 7, 19, 21, 24, 25, 27]

/-- From `s` to `t` nothing has changed but what instruction `i` may write; a field without a premise has no writer
among the instructions. -/
structure ExecFrame (i : Instr) (s t : State) : Prop where
  readV : ∀ r, mayWriteReg i r = false → t.readV r = s.readV r
  iReg : i.row ∉ [20, 30, 31] → t.iReg = s.iReg
  pc : i.row ∉ pcRows → t.pc = s.pc
  sp : i.row ∉ [2, 4] → t.sp = s.sp
  stack : i.row ≠ 4 → t.stack = s.stack
  dt : i.row ≠ 28 → t.dt = s.dt
  st : i.row ≠ 29 → t.st = s.st
  mem : i.row ∉ [32, 33] → t.mem = s.mem
  disp : i.row ∉ [1, 23] → t.disp = s.disp
  draws : i.row ≠ 22 → t.draws = s.draws
  keysCur : t.keysCur = s.keysCur
  keysPrev : t.keysPrev = s.keysPrev
  drawFlag : t.drawFlag = s.drawFlag
  halted : t.halted = s.halted
  errOpcode : t.errOpcode = s.errOpcode
  errPc : t.errPc = s.errPc

namespace ExecFrame

variable {i : Instr} {s : State}

theorem refl (i : Instr) (s : State) : ExecFrame i s s := by
  constructor <;> intros <;> rfl

/-- Only registers that `i` may write have changed. -/
theorem of_v {v : Vector Byte 16} (h : ∀ r, mayWriteReg i r = false → { s with v := v }.readV r = s.readV r) :
    ExecFrame i s { s with v := v } :=
  { refl i s with readV := h }

theorem writeV {x : Reg} (b : Byte) (hx : mayWriteReg i x = true) : ExecFrame i s (s.writeV x b) :=
  of_v fun r hr => State.readV_writeV_of_ne s b (by rintro rfl; simp [hx] at hr)

theorem writeResultFlag {x : Reg} (b : Byte) (f : Bool) (hx : mayWriteReg i x = true)
    (hf : mayWriteReg i flagReg = true) : ExecFrame i s (s.writeResultFlag x b f) :=
  of_v fun r hr => by
    have hxr : x ≠ r := by rintro rfl; simp [hx] at hr
    have hfr : flagReg ≠ r := by rintro rfl; simp [hf] at hr
    exact (State.readV_writeResultFlag s x b f r).trans (by rw [if_neg hfr, if_neg hxr])

theorem jumpTo (a : Word) (hi : i.row ∈ pcRows) : ExecFrame i s (s.jumpTo a) :=
  { refl i s with pc := fun h => absurd hi h }

theorem skipIf (c : Bool) (hi : i.row ∈ pcRows) : ExecFrame i s (s.skipIf c) := by
  rw [State.skipIf_eq]
  exact jumpTo _ hi

end ExecFrame

/-- What LD Vx, K does: back to itself without a release edge, else it writes its register (R227). -/
theorem exec_ldVxK_cases {x : Reg} {s t : State} (h : exec (.ldVxK x) s = .next t) :
    (s.releaseEdges = 0 ∧ t = s.rewind) ∨
    (s.releaseEdges ≠ 0 ∧ ∃ k, leastKey s.releaseEdges = some k ∧ t = s.writeV x (BitVec.ofNat 8 k)) := by
  simp only [exec, execLdVxK] at h
  split at h
  case h_1 hk => exact .inl ⟨leastKey_eq_none.1 hk, (Host.Outcome.next.inj h).symm⟩
  case h_2 k hk =>
    refine .inr ⟨fun h0 => ?_, k, hk, (Host.Outcome.next.inj h).symm⟩
    simp [leastKey_eq_none.2 h0] at hk

/-- LD [I], Vx is one write of consecutive bytes (R186). -/
theorem exec_stRegs_eq (x : Reg) (s : State) : exec (.stRegs x) s = .next
    { s with mem := s.mem.writeBytes s.iReg.toNat ((blockIndices x).map fun i => s.readV (blockReg i)) } :=
  congrArg Host.Outcome.next (State.storeBlock_eq s (x.toNat + 1) x.isLt)

/-- LD Vx, [I] changes the registers up to `X` only (R187). -/
theorem exec_ldRegs_frame {x : Reg} {s t : State} (h : exec (.ldRegs x) s = .next t) : ExecFrame (.ldRegs x) s t := by
  obtain rfl := Host.Outcome.next.inj h
  obtain ⟨v, hv⟩ := State.loadBlock_eq s (blockIndices x)
  rw [hv]
  refine .of_v fun r hr => ?_
  have hrx : ¬ r.toNat < x.toNat + 1 := by simpa [mayWriteReg, Nat.lt_succ_iff] using hr
  rw [← hv, blockIndices, State.loadBlock_readV s _ x.isLt, if_neg hrx]

/-- DRW changes `VF` and the display only (R202). -/
theorem exec_drw_frame {x y : Reg} {n : Nibble} {s t : State} (h : exec (.drw x y n) s = .next t) :
    ExecFrame (.drw x y n) s t := by
  obtain rfl := Host.Outcome.next.inj h
  refine { ExecFrame.refl _ s with readV := fun r hr => ?_, disp := fun hd => absurd (by simp [Instr.row]) hd }
  have hfr : flagReg ≠ r := by rintro rfl; simp [mayWriteReg] at hr
  rw [State.readV_writeFlag, if_neg hfr]
  exact (State.readV_writeFlag s false r).trans (if_neg hfr)

/-- Every instruction leaves everything alone that it may not write. -/
theorem exec_frame {i : Instr} {s t : State} (h : exec i s = .next t) : ExecFrame i s t := by
  cases i with
  | ldImm | addImm | ldReg | orReg | andReg | xorReg | ldVxDt =>
    obtain rfl := Host.Outcome.next.inj h
    exact .writeV _ (by simp [mayWriteReg])
  | addReg | sub | shr | subn | shl =>
    obtain rfl := Host.Outcome.next.inj h
    exact .writeResultFlag _ _ (by simp [mayWriteReg]) (by simp [mayWriteReg])
  | seImm | sneImm | seReg | sneReg | skp | sknp =>
    obtain rfl := Host.Outcome.next.inj h
    exact .skipIf _ (by simp [Instr.row, pcRows])
  | jp | jpV0 =>
    obtain rfl := Host.Outcome.next.inj h
    exact .jumpTo _ (by simp [Instr.row, pcRows])
  | ret =>
    obtain rfl := Host.Outcome.next.inj h
    exact { ExecFrame.refl _ s with
      pc := fun hi => absurd (by simp [Instr.row, pcRows]) hi
      sp := fun hi => absurd (by simp [Instr.row]) hi }
  | call =>
    obtain rfl := Host.Outcome.next.inj h
    exact { ExecFrame.refl _ s with
      pc := fun hi => absurd (by simp [Instr.row, pcRows]) hi
      sp := fun hi => absurd (by simp [Instr.row]) hi
      stack := fun hi => absurd rfl hi }
  | ldI | addI | ldF =>
    obtain rfl := Host.Outcome.next.inj h
    exact { ExecFrame.refl _ s with iReg := fun hi => absurd (by simp [Instr.row]) hi }
  | ldDtVx =>
    obtain rfl := Host.Outcome.next.inj h
    exact { ExecFrame.refl _ s with dt := fun hi => absurd rfl hi }
  | ldStVx =>
    obtain rfl := Host.Outcome.next.inj h
    exact { ExecFrame.refl _ s with st := fun hi => absurd rfl hi }
  | cls =>
    obtain rfl := Host.Outcome.next.inj h
    exact { ExecFrame.refl _ s with disp := fun hi => absurd (by simp [Instr.row]) hi }
  | ldB =>
    obtain rfl := Host.Outcome.next.inj h
    exact { ExecFrame.refl _ s with mem := fun hi => absurd (by simp [Instr.row]) hi }
  | stRegs x =>
    obtain rfl := Host.Outcome.next.inj ((exec_stRegs_eq x s).symm.trans h)
    exact { ExecFrame.refl _ s with mem := fun hi => absurd (by simp [Instr.row]) hi }
  | rnd x nn =>
    obtain rfl := Host.Outcome.next.inj h
    exact { ExecFrame.writeV (s := s) (s.randomByte &&& nn) (by simp [mayWriteReg]) with
      draws := fun hi => absurd rfl hi }
  | ldVxK x =>
    obtain ⟨-, rfl⟩ | ⟨-, k, -, rfl⟩ := exec_ldVxK_cases h
    · exact .jumpTo _ (by simp [Instr.row, pcRows])
    · exact .writeV _ (by simp [mayWriteReg])
  | drw => exact exec_drw_frame h
  | ldRegs => exact exec_ldRegs_frame h

/-- Every instruction answers a next state that keeps what it may not write. -/
theorem exec_next_frame (i : Instr) (s : State) : ∃ t, exec i s = .next t ∧ ExecFrame i s t := by
  obtain ⟨t, ht⟩ := exec_answers i s
  exact ⟨t, ht, exec_frame ht⟩

/-! ## The invariant (R30, R62, R70, R271) -/

/-- Every instruction keeps memory canonical: the two that store do it by `writeBytes`. -/
theorem exec_mem_wf {i : Instr} {s t : State} (h : exec i s = .next t) (hm : s.mem.wf) : t.mem.wf := by
  by_cases hrow : i.row ∈ [32, 33]
  · cases i with
    | ldB =>
      obtain rfl := Host.Outcome.next.inj h
      exact Memory.writeBytes_wf hm _ _
    | stRegs x =>
      obtain rfl := Host.Outcome.next.inj ((exec_stRegs_eq x s).symm.trans h)
      exact Memory.writeBytes_wf hm _ _
    | _ => simp [Instr.row] at hrow
  · rwa [(exec_frame h).mem hrow]

/-- The decode error latches an invalid word and its address, and clears the draw flag (R271). -/
theorem latchInv_raiseDecodeError (s : State) {op : Word} {why : Invalid} (h : decode op = .invalid why) :
    LatchInv (s.raiseDecodeError op) where
  invalid _ := ⟨why, h⟩
  pc _ := rfl
  draw _ := rfl
  clear h := by simp at h

/-- The latch of a core that is not halted is truthful as long as it is not written. -/
theorem latchInv_of_not_halted {s t : State} (h : LatchInv s) (hs : s.halted = false) (ht : t.halted = s.halted)
    (hop : t.errOpcode = s.errOpcode) (hpc : t.errPc = s.errPc) : LatchInv t where
  invalid hh := by simp [ht, hs] at hh
  pc hh := by simp [ht, hs] at hh
  draw hh := by simp [ht, hs] at hh
  clear _ := by
    rw [hop, hpc]
    exact h.clear hs

/-- A Step keeps the invariant. -/
theorem step_inv {s t : State} (hstep : step s = .next t) (h : Inv s) : Inv t := by
  obtain ⟨-, rfl⟩ | ⟨-, ⟨why, hd⟩, rfl⟩ | ⟨hh, i, u, -, hu, rfl⟩ := step_cases hstep
  · exact h
  · exact ⟨h.memory, latchInv_raiseDecodeError s hd⟩
  · have hf := exec_frame hu
    have hm : u.mem.wf := exec_mem_wf hu h.memory
    exact ⟨hm, latchInv_of_not_halted h.latch hh hf.halted hf.errOpcode hf.errPc⟩

/-! ## What no instruction reads (R26, R28, R29, R30) -/

/-- `s` with the fields of `o` that no instruction but LD Vx, K reads. -/
def State.withUnreadOf (s o : State) : State :=
  { s with st := o.st, drawFlag := o.drawFlag, halted := o.halted, errOpcode := o.errOpcode, errPc := o.errPc,
           keysPrev := o.keysPrev }

theorem State.skipIf_withUnreadOf (s o : State) (c : Bool) :
    (s.withUnreadOf o).skipIf c = (s.skipIf c).withUnreadOf o := by
  rw [State.skipIf_eq, State.skipIf_eq]
  rfl

/-- Other values of the unread fields change nothing else: the run from the other state ends in the same state but for
them. Of them only `ST` is written, by LD ST, Vx, with the same value in both runs. -/
theorem exec_withUnreadOf {i : Instr} {s t : State} (o : State) (hk : i.row = 27 → o.keysPrev = s.keysPrev)
    (h : exec i s = .next t) :
    exec i (s.withUnreadOf o) = .next (t.withUnreadOf { o with st := if i.row = 29 then t.st else o.st }) := by
  cases i with
  | seImm | sneImm | seReg | sneReg | skp | sknp =>
    obtain rfl := Host.Outcome.next.inj h
    exact congrArg Host.Outcome.next (State.skipIf_withUnreadOf s o _)
  | ldVxK x =>
    have hrel : (s.withUnreadOf o).releaseEdges = s.releaseEdges := by
      simp [State.releaseEdges, State.withUnreadOf, hk rfl]
    simp only [exec, execLdVxK, hrel] at h ⊢
    split at h <;> obtain rfl := Host.Outcome.next.inj h <;> rfl
  | stRegs x =>
    obtain rfl := Host.Outcome.next.inj ((exec_stRegs_eq x s).symm.trans h)
    exact exec_stRegs_eq x (s.withUnreadOf o)
  | ldRegs x =>
    obtain rfl := Host.Outcome.next.inj h
    exact congrArg Host.Outcome.next
      (List.foldl_hom (f := fun u : State => u.withUnreadOf o) (init := s) fun _ _ => rfl)
  | _ =>
    obtain rfl := Host.Outcome.next.inj h
    rfl

/-! ## The program counter (R23, R148) -/

/-- A skip from the advanced `pc` (R148). -/
theorem State.skipIf_advance_pc (s : State) (c : Bool) :
    (s.advance.skipIf c).pc = if c then s.pc + 4 else s.pc + 2 := by
  rw [State.skipIf_pc, State.advance_pc, BitVec.add_assoc]
  rfl

@[simp] theorem State.advance_readV (s : State) (x : Reg) : s.advance.readV x = s.readV x := rfl

theorem State.keyPressed_advance (s : State) (x : Reg) :
    s.advance.keyPressed x = s.keysCur.getLsbD ((s.readV x).toNat % 16) := rfl

/-- What a return pops, by the number of its slot (R141). -/
theorem State.popPc_slot (s : State) : s.stack[(s.sp.toNat + 15) % 16]? = some s.popPc.pc := by
  have hslot : (s.sp.toNat + 15) % 16 = (s.sp - 1).toNat := by bv_omega
  rw [hslot]
  exact Vector.getElem?_eq_getElem (s.sp - 1).isLt

/-- The sum of JP V0 does not wrap (R149). -/
theorem addrWord_add_byteWord_toNat (nnn : Addr) (b : Byte) :
    (addrWord nnn + byteWord b).toNat = nnn.toNat + b.toNat := by
  have := nnn.isLt
  have := b.isLt
  rw [BitVec.toNat_add, addrWord_toNat, byteWord_toNat]
  omega

/-! ## The obligations of the family -/

/-- Settles O24: by the three things a Step can do; the instruction's case by the frame and `exec_mem_wf`. -/
theorem stepKeepsTheInvariant : Obligations.StepKeepsTheInvariant := by
  intro s h
  obtain ⟨t, ht⟩ := step_answers s
  exact ⟨t, ht, step_inv ht h⟩

/-- Settles O14: the frame for the instructions outside `pcRows`, and one case for each of the others. -/
theorem programCounterAfterEachStep : Obligations.ProgramCounterAfterEachStep := by
  refine ⟨fun s i hh hd => ?_, fun s why hh hd => ⟨_, step_of_invalid hh hd, rfl, rfl⟩⟩
  obtain ⟨t, ht⟩ := exec_answers i s.advance
  refine ⟨t.finish i, step_of_instr hh hd ht, ?_⟩
  cases i with
  | seImm | sneImm | seReg | sneReg =>
    obtain rfl := Host.Outcome.next.inj ht
    rw [State.finish_pc, State.skipIf_advance_pc]
    simp
  | skp x =>
    obtain rfl := Host.Outcome.next.inj ht
    exact s.skipIf_advance_pc (s.advance.keyPressed x)
  | sknp x =>
    obtain rfl := Host.Outcome.next.inj ht
    refine (s.skipIf_advance_pc (!s.advance.keyPressed x)).trans ?_
    rw [State.keyPressed_advance]
    cases s.keysCur.getLsbD ((s.readV x).toNat % 16) <;> rfl
  | jp nnn =>
    obtain rfl := Host.Outcome.next.inj ht
    exact addrWord_toNat nnn
  | call nnn =>
    obtain rfl := Host.Outcome.next.inj ht
    exact ⟨addrWord_toNat nnn, by simp⟩
  | ret =>
    obtain rfl := Host.Outcome.next.inj ht
    exact s.advance.popPc_slot
  | jpV0 nnn =>
    obtain rfl := Host.Outcome.next.inj ht
    exact addrWord_add_byteWord_toNat nnn (s.readV 0)
  | ldVxK x =>
    obtain ⟨h0, rfl⟩ | ⟨h0, k, -, rfl⟩ := exec_ldVxK_cases ht
    · exact (BitVec.add_sub_cancel s.pc 2).trans (if_pos h0).symm
    · exact (if_neg h0).symm
  | _ => exact (exec_frame ht).pc (by simp [Instr.row, pcRows])

/-- Settles O15: the register part of the frame. -/
theorem registersChangeOnlyAsDestinationOrFlag : Obligations.RegistersChangeOnlyAsDestinationOrFlag := by
  intro i s
  obtain ⟨t, ht, hf⟩ := exec_next_frame i s
  exact ⟨t, ht, hf.readV⟩

/-- Settles O17: the stack part of the frame. -/
theorem stackChangedOnlyByCallAndRet : Obligations.StackChangedOnlyByCallAndRet := by
  intro i s
  obtain ⟨t, ht, hf⟩ := exec_next_frame i s
  exact ⟨t, ht, hf.sp, hf.stack⟩

/-- Settles O18: the memory part of the frame. -/
theorem memoryStoredOnlyByTwoInstructions : Obligations.MemoryStoredOnlyByTwoInstructions := by
  intro i s
  obtain ⟨t, ht, hf⟩ := exec_next_frame i s
  exact ⟨t, ht, fun hrow a => by rw [hf.mem hrow]⟩

/-- Settles O20: the latch, key and timer parts of the frame. -/
theorem latchKeysAndTimersAreNotWrittenByOtherInstructions :
    Obligations.LatchKeysAndTimersAreNotWrittenByOtherInstructions := by
  intro i s
  obtain ⟨t, ht, hf⟩ := exec_next_frame i s
  exact ⟨t, ht, hf.halted, hf.errOpcode, hf.errPc, hf.keysCur, hf.keysPrev, hf.drawFlag, hf.dt, hf.st⟩

/-- Settles O21: the run with other unread fields, where `KEYS_PREV` is the same and no instruction writes it. -/
theorem soundTimerDrawFlagAndLatchAreNotRead : Obligations.SoundTimerDrawFlagAndLatchAreNotRead := by
  intro i s st draw halted errOpcode errPc
  obtain ⟨t, ht, hf⟩ := exec_next_frame i s
  refine ⟨t, _, ht, exec_withUnreadOf { s with st := st, drawFlag := draw, halted := halted, errOpcode := errOpcode,
                                               errPc := errPc } (fun _ => rfl) ht, ?_⟩
  simp [State.withUnreadOf, ← hf.keysPrev]

/-- Settles O22: the run with another `KEYS_PREV`; by the frame both runs end with the other unread fields of `s`, or
with the same `ST`. -/
theorem previousKeysReadByKeyWaitOnly : Obligations.PreviousKeysReadByKeyWaitOnly := by
  intro i s prev hrow
  obtain ⟨t, ht, hf⟩ := exec_next_frame i s
  have hst : (if i.row = 29 then t.st else s.st) = t.st := by
    split
    · rfl
    · exact (hf.st ‹_›).symm
  have hrun := exec_withUnreadOf { s with keysPrev := prev } (fun h => absurd h hrow) ht
  simp only [hst] at hrun
  refine ⟨t, ht, hrun.trans ?_⟩
  simp [State.withUnreadOf, hf.drawFlag, hf.halted, hf.errOpcode, hf.errPc]

end Sys2Proof.Machine

/-! # Stored bytes and the fetch (family `20_memory.md`) -/

namespace Sys2Proof.Machine

open Sys2Proof.Safety

/-- After LD [I], Vx the bytes from `I` up hold the stored registers (R65, R186). -/
theorem exec_stRegs_read {x r : Reg} {s t : State} (h : exec (.stRegs x) s = .next t) (hr : r.toNat ≤ x.toNat) :
    t.mem.read (s.dataAddr r.toNat) = s.readV r := by
  obtain rfl := Host.Outcome.next.inj ((exec_stRegs_eq x s).symm.trans h)
  refine Memory.read_writeBytes_inside _ _ _ _ _ ?_ ?_
  · simp [blockIndices, blockReg_of_toNat, Nat.lt_succ_of_le hr]
  · have := x.isLt
    simp only [blockIndices, List.length_map, List.length_range, memSize]
    omega

/-- Settles O41: the fetch at `I` reads the bytes of `V[0]` and `V[1]`, high byte first. -/
theorem storedWordIsFetchedBigEndian : Obligations.StoredWordIsFetchedBigEndian := by
  intro x s hx
  obtain ⟨t, ht⟩ := exec_answers (.stRegs x) s
  have hhi : t.mem.read s.iReg.toNat = s.readV 0 := exec_stRegs_read (r := 0) ht (Nat.zero_le _)
  have hlo : t.mem.read (s.iReg.toNat + 1) = s.readV 1 := exec_stRegs_read (r := 1) ht hx
  exact ⟨t, ht, by rw [State.fetchWord_eq, wordOfBytes_toNat, hhi, hlo]⟩

end Sys2Proof.Machine

/-! # The decoder, the encoder and the opcode map (family `30_encoding.md`)

The decoder reads back every encoded instruction (`decode_encode`), and a word that decodes is the encoding of what it
decodes to (`encode_of_decode`); so statements about decoded words become statements about `encode i`. `decode_cases`
says once which of the four groups with a sub-operation, or which plain branch, answers. -/

namespace Sys2Proof.Laws.RowSelects

/-- Every instruction's word is selected by the instruction's own row (R95). -/
theorem all : ∀ i : Instr, Statement i
  | .cls ign => cls ign | .ret ign => ret ign | .jp nnn => jp nnn | .call nnn => call nnn
  | .seImm x nn => seImm x nn | .sneImm x nn => sneImm x nn | .seReg x y ign => seReg x y ign
  | .ldImm x nn => ldImm x nn | .addImm x nn => addImm x nn | .ldReg x y => ldReg x y | .orReg x y => orReg x y
  | .andReg x y => andReg x y | .xorReg x y => xorReg x y | .addReg x y => addReg x y | .sub x y => sub x y
  | .shr x y => shr x y | .subn x y => subn x y | .shl x y => shl x y | .sneReg x y ign => sneReg x y ign
  | .ldI nnn => ldI nnn | .jpV0 nnn => jpV0 nnn | .rnd x nn => rnd x nn | .drw x y n => drw x y n | .skp x => skp x
  | .sknp x => sknp x | .ldVxDt x => ldVxDt x | .ldVxK x => ldVxK x | .ldDtVx x => ldDtVx x | .ldStVx x => ldStVx x
  | .addI x => addI x | .ldF x => ldF x | .ldB x => ldB x | .stRegs x => stRegs x | .ldRegs x => ldRegs x

end Sys2Proof.Laws.RowSelects

namespace Sys2Proof

/-! ## A word whose fields are known -/

theorem encodeXI_of_fields {op : Word} {g : Nibble} {nn : Byte} (hg : fieldG op = g) (hn : fieldNN op = nn) :
    encodeXI g (fieldX op) nn = op := by
  rw [← hg, ← hn, encodeXI_fields]

theorem encodeA_of_fields {op : Word} {g : Nibble} (hg : fieldG op = g) : encodeA g (fieldNNN op) = op := by
  rw [← hg, encodeA_fields]

theorem encodeXYN_of_fields {op : Word} {g n : Nibble} (hg : fieldG op = g) (hn : fieldN op = n) :
    encodeXYN g (fieldX op) (fieldY op) n = op := by
  rw [← hg, ← hn, encodeXYN_fields]

theorem fieldG_eq_iff (op : Word) (g : Nibble) : fieldG op = g ↔ op.toNat / 4096 = g.toNat := by
  rw [← fieldG_toNat, BitVec.toNat_inj]

theorem fieldNN_eq_iff (op : Word) (nn : Byte) : fieldNN op = nn ↔ op.toNat % 256 = nn.toNat := by
  rw [← fieldNN_toNat, BitVec.toNat_inj]

/-! ## The four groups with a sub-operation (R94, R97) -/

/-- A selection by `if` is invalid when the test fails and the rest is invalid. -/
theorem exists_invalid_ite (c : Prop) [Decidable c] (i : Instr) (d : Decoded) :
    (∃ why, (if c then .instr i else d) = .invalid why) ↔ ¬c ∧ ∃ why, d = .invalid why := by
  split <;> simp [*]

theorem decodeGroup0_invalid_iff (op : Word) :
    (∃ why, decodeGroup0 op = .invalid why) ↔ op.toNat % 256 ∉ [0xE0, 0xEE] := by
  simp [decodeGroup0, exists_invalid_ite, fieldNN_eq_iff]

theorem decodeGroup8_invalid_iff (op : Word) : (∃ why, decodeGroup8 op = .invalid why) ↔
    op.toNat % 16 ∈ [0x8, 0x9, 0xA, 0xB, 0xC, 0xD, 0xF] := by
  simp only [decodeGroup8, fieldN_toNat]
  split
  case h_10 =>
    simp only [Decoded.invalid.injEq, exists_eq', true_iff, List.mem_cons, List.not_mem_nil, or_false]
    grind
  all_goals simp [*]

theorem decodeGroupE_invalid_iff (op : Word) :
    (∃ why, decodeGroupE op = .invalid why) ↔ op.toNat % 256 ∉ [0x9E, 0xA1] := by
  simp [decodeGroupE, exists_invalid_ite, fieldNN_eq_iff]

theorem decodeGroupF_invalid_iff (op : Word) : (∃ why, decodeGroupF op = .invalid why) ↔
    op.toNat % 256 ∉ [0x07, 0x0A, 0x15, 0x18, 0x1E, 0x29, 0x33, 0x55, 0x65] := by
  simp [decodeGroupF, exists_invalid_ite, fieldNN_eq_iff]

theorem encode_of_decodeGroup0 {op : Word} {i : Instr} (hg : fieldG op = 0x0) (h : decodeGroup0 op = .instr i) :
    encode i = op := by
  unfold decodeGroup0 at h
  split_ifs at h <;> obtain rfl := Decoded.instr.inj h
  all_goals exact encodeXI_of_fields hg ‹_›

theorem encode_of_decodeGroup8 {op : Word} {i : Instr} (hg : fieldG op = 0x8) (h : decodeGroup8 op = .instr i) :
    encode i = op := by
  unfold decodeGroup8 at h
  split at h <;> cases h
  all_goals exact encodeXYN_of_fields hg (BitVec.eq_of_toNat_eq ‹_›)

theorem encode_of_decodeGroupE {op : Word} {i : Instr} (hg : fieldG op = 0xE) (h : decodeGroupE op = .instr i) :
    encode i = op := by
  unfold decodeGroupE at h
  split_ifs at h <;> obtain rfl := Decoded.instr.inj h
  all_goals exact encodeXI_of_fields hg ‹_›

theorem encode_of_decodeGroupF {op : Word} {i : Instr} (hg : fieldG op = 0xF) (h : decodeGroupF op = .instr i) :
    encode i = op := by
  unfold decodeGroupF at h
  split_ifs at h <;> obtain rfl := Decoded.instr.inj h
  all_goals exact encodeXI_of_fields hg ‹_›

/-! ## The decoder -/

/-- What the decoder answers: the sub-decoder of group 0x0, 0x8, 0xE or 0xF, and in the twelve other groups an
instruction whose encoding is the word (R96, R97). -/
theorem decode_cases (op : Word) :
    (fieldG op = 0x0 ∧ decode op = decodeGroup0 op) ∨ (fieldG op = 0x8 ∧ decode op = decodeGroup8 op) ∨
    (fieldG op = 0xE ∧ decode op = decodeGroupE op) ∨ (fieldG op = 0xF ∧ decode op = decodeGroupF op) ∨
    (op.toNat / 4096 ∉ [0x0, 0x8, 0xE, 0xF] ∧ ∃ i, decode op = .instr i ∧ encode i = op) := by
  generalize hd : decode op = d
  unfold decode at hd
  split at hd <;> subst hd
  case h_1 hg => exact .inl ⟨BitVec.eq_of_toNat_eq hg, rfl⟩
  case h_9 hg => exact .inr (.inl ⟨BitVec.eq_of_toNat_eq hg, rfl⟩)
  case h_15 hg => exact .inr (.inr (.inl ⟨BitVec.eq_of_toNat_eq hg, rfl⟩))
  case h_16 =>
    have hg : (fieldG op).toNat = 15 := by grind [(fieldG op).isLt]
    exact .inr (.inr (.inr (.inl ⟨BitVec.eq_of_toNat_eq hg, rfl⟩)))
  case h_2 hg | h_3 hg | h_11 hg | h_12 hg =>
    exact .inr (.inr (.inr (.inr ⟨by simp [← fieldG_toNat, hg], _, rfl,
      encodeA_of_fields (BitVec.eq_of_toNat_eq hg)⟩)))
  case h_4 hg | h_5 hg | h_7 hg | h_8 hg | h_13 hg =>
    exact .inr (.inr (.inr (.inr ⟨by simp [← fieldG_toNat, hg], _, rfl,
      encodeXI_of_fields (BitVec.eq_of_toNat_eq hg) rfl⟩)))
  case h_6 hg | h_10 hg | h_14 hg =>
    exact .inr (.inr (.inr (.inr ⟨by simp [← fieldG_toNat, hg], _, rfl,
      encodeXYN_of_fields (BitVec.eq_of_toNat_eq hg) rfl⟩)))

/-- Decoding the word of an instruction gives the instruction back, with its operands and ignored bits (R92, R95). -/
theorem decode_encode (i : Instr) : decode (encode i) = .instr i := by
  cases i with
  | cls | ret => simp [encode, decode, decodeGroup0]
  | ldReg | orReg | andReg | xorReg | addReg | sub | shr | subn | shl => simp [encode, decode, decodeGroup8]
  | skp | sknp => simp [encode, decode, decodeGroupE]
  | ldVxDt | ldVxK | ldDtVx | ldStVx | addI | ldF | ldB | stRegs | ldRegs => simp [encode, decode, decodeGroupF]
  | _ => simp [encode, decode]

/-- A word that decodes is the encoding of what it decodes to (R92, R95). -/
theorem encode_of_decode {op : Word} {i : Instr} (h : decode op = .instr i) : encode i = op := by
  obtain ⟨hg, hd⟩ | ⟨hg, hd⟩ | ⟨hg, hd⟩ | ⟨hg, hd⟩ | ⟨-, j, hd, hj⟩ := decode_cases op <;> rw [hd] at h
  · exact encode_of_decodeGroup0 hg h
  · exact encode_of_decodeGroup8 hg h
  · exact encode_of_decodeGroupE hg h
  · exact encode_of_decodeGroupF hg h
  · rwa [← Decoded.instr.inj h]

/-! ## The opcode map -/

/-- Two rows of one number are the same row. -/
theorem opcodeRow_eq_of_number_eq : ∀ r ∈ opcodeRows, ∀ q ∈ opcodeRows, r.number = q.number → r = q := by decide

/-- A row that looks at the group selects words of its own group only. -/
theorem group_of_selects {r : OpcodeRow} {op : Word} (h : r.selects op = true) (hm : r.mask = 0xF000) :
    op.toNat / 4096 = r.value.toNat / 4096 := by
  have hv : encodeXI (fieldG op) 0 0 = r.value := by rw [← and_F000, ← hm]; exact beq_iff_eq.1 h
  rw [← fieldG_toNat, ← fieldG_toNat, ← hv, fieldG_encodeXI]

/-- A row that looks at the group and the low byte selects words with its own ones only. -/
theorem group_byte_of_selects {r : OpcodeRow} {op : Word} (h : r.selects op = true) (hm : r.mask = 0xF0FF) :
    op.toNat / 4096 = r.value.toNat / 4096 ∧ op.toNat % 256 = r.value.toNat % 256 := by
  have hv : encodeXI (fieldG op) 0 (fieldNN op) = r.value := by rw [← and_F0FF, ← hm]; exact beq_iff_eq.1 h
  rw [← fieldG_toNat, ← fieldG_toNat, ← fieldNN_toNat, ← fieldNN_toNat, ← hv, fieldG_encodeXI, fieldNN_encodeXI]
  exact ⟨rfl, rfl⟩

/-- A row that looks at the group and the low nibble selects words with its own ones only. -/
theorem group_nibble_of_selects {r : OpcodeRow} {op : Word} (h : r.selects op = true) (hm : r.mask = 0xF00F) :
    op.toNat / 4096 = r.value.toNat / 4096 ∧ op.toNat % 16 = r.value.toNat % 16 := by
  have hv : encodeXYN (fieldG op) 0 0 (fieldN op) = r.value := by rw [← and_F00F, ← hm]; exact beq_iff_eq.1 h
  rw [← fieldG_toNat, ← fieldG_toNat, ← fieldN_toNat, ← fieldN_toNat, ← hv, fieldG_encodeXYN, fieldN_encodeXYN]
  exact ⟨rfl, rfl⟩

/-- The decoder answers an instruction of this row. -/
def DecodesAsRow (op : Word) (r : OpcodeRow) : Prop := ∃ i, decode op = .instr i ∧ i.row = r.number

theorem decodesAsRow_low (op : Word) : ∀ r ∈ opcodeRowsLow, r.selects op = true → DecodesAsRow op r := by
  intro r hr h
  fin_cases hr
  iterate 2
    obtain ⟨hg, hn⟩ := group_byte_of_selects h rfl
    simp [DecodesAsRow, decode, decodeGroup0, fieldG_toNat, fieldNN_eq_iff, hg, hn, Instr.row]
  all_goals simp [DecodesAsRow, decode, fieldG_toNat, group_of_selects h rfl, Instr.row]

theorem decodesAsRow_group8 (op : Word) : ∀ r ∈ opcodeRowsGroup8, r.selects op = true → DecodesAsRow op r := by
  intro r hr h
  fin_cases hr
  all_goals
    obtain ⟨hg, hn⟩ := group_nibble_of_selects h rfl
    simp [DecodesAsRow, decode, decodeGroup8, fieldG_toNat, fieldN_toNat, hg, hn, Instr.row]

theorem decodesAsRow_middle (op : Word) : ∀ r ∈ opcodeRowsMiddle, r.selects op = true → DecodesAsRow op r := by
  intro r hr h
  fin_cases hr
  iterate 5
    · simp [DecodesAsRow, decode, fieldG_toNat, group_of_selects h rfl, Instr.row]
  all_goals
    obtain ⟨hg, hn⟩ := group_byte_of_selects h rfl
    simp [DecodesAsRow, decode, decodeGroupE, fieldG_toNat, fieldNN_eq_iff, hg, hn, Instr.row]

theorem decodesAsRow_groupF (op : Word) : ∀ r ∈ opcodeRowsGroupF, r.selects op = true → DecodesAsRow op r := by
  intro r hr h
  fin_cases hr
  all_goals
    obtain ⟨hg, hn⟩ := group_byte_of_selects h rfl
    simp [DecodesAsRow, decode, decodeGroupF, fieldG_toNat, fieldNN_eq_iff, hg, hn, Instr.row]

/-- A word that a row selects decodes to an instruction of that row. -/
theorem decodesAsRow_of_selects {op : Word} {r : OpcodeRow} (hr : r ∈ opcodeRows) (h : r.selects op = true) :
    DecodesAsRow op r := by
  simp only [opcodeRows, List.mem_append] at hr
  obtain ((hr | hr) | hr) | hr := hr
  · exact decodesAsRow_low op r hr h
  · exact decodesAsRow_group8 op r hr h
  · exact decodesAsRow_middle op r hr h
  · exact decodesAsRow_groupF op r hr h

/-! ## Canonical encodings (R100) -/

/-- Only CLS, RET, SE Vx, Vy and SNE Vx, Vy have ignored bits (R100). -/
def ignoringRows : List Nat := [1, 2, 7, 19]

/-- Every other row looks at the same bits for a canonical word as for any word of it (R100). -/
theorem canonicalMask_eq_mask : ∀ r ∈ opcodeRows, r.number ∉ ignoringRows → r.canonicalMask = r.mask := by decide

/-- An instruction without ignored bits has a canonical word (R100). -/
theorem canonical_of_row_not_mem {i : Instr} (h : i.row ∉ ignoringRows) :
    ∃ r ∈ opcodeRows, r.number = i.row ∧ r.canonical (encode i) = true := by
  obtain ⟨r, hr, hn, hs⟩ := Laws.RowSelects.all i
  refine ⟨r, hr, hn, ?_⟩
  rwa [OpcodeRow.canonical, canonicalMask_eq_mask r hr (hn ▸ h)]

theorem encodeXI_eq_iff (g x : Nibble) (nn : Byte) : encodeXI g x nn = encodeXI g 0 nn ↔ x = 0 :=
  ⟨fun h => by simpa using congrArg fieldX h, fun h => by rw [h]⟩

theorem encodeXYN_and_F00F_eq_iff (g x y n : Nibble) : encodeXYN g x y n &&& 0xF00F = encodeXYN g 0 0 0 ↔ n = 0 := by
  rw [and_F00F, fieldG_encodeXYN, fieldN_encodeXYN]
  exact ⟨fun h => by simpa using congrArg fieldN h, fun h => by rw [h]⟩

/-- A row whose ignored bits are the second nibble takes only 0 there as canonical. -/
theorem canonical_byte_iff (m : Nat) (k : Word) (g x : Nibble) (nn : Byte) :
    (OpcodeRow.mk m k (encodeXI g 0 nn) 0xFFFF).canonical (encodeXI g x nn) = true ↔ x = 0 := by
  have hand : encodeXI g x nn &&& 0xFFFF = encodeXI g x nn := BitVec.and_allOnes
  simp only [OpcodeRow.canonical, beq_iff_eq, hand, encodeXI_eq_iff]

/-- A row whose ignored bits are the low nibble takes only 0 there as canonical. -/
theorem canonical_nibble_iff (m : Nat) (k : Word) (g x y n : Nibble) :
    (OpcodeRow.mk m k (encodeXYN g 0 0 0) 0xF00F).canonical (encodeXYN g x y n) = true ↔ n = 0 := by
  simp only [OpcodeRow.canonical, beq_iff_eq, encodeXYN_and_F00F_eq_iff]

/-- An instruction with ignored bits: its row's test of the word has to agree with `wellFormed` on them; no other row has
the row's number. -/
theorem wellFormed_iff_of_canonical_iff {r : OpcodeRow} {i : Instr} {ign : Nibble}
    (hc : r.canonical (encode i) = true ↔ ign = 0) (hr : r ∈ opcodeRows) (hn : r.number = i.row)
    (hw : i.wellFormed = (ign == 0)) :
    i.wellFormed = true ↔ ∃ q ∈ opcodeRows, q.number = i.row ∧ q.canonical (encode i) = true := by
  rw [hw, beq_iff_eq, ← hc]
  refine ⟨fun h => ⟨r, hr, hn, h⟩, fun ⟨q, hq, hqn, h⟩ => ?_⟩
  rwa [opcodeRow_eq_of_number_eq r hr q hq (hn.trans hqn.symm)]

/-- The terms of R101 are those of the canonical words of R100. -/
theorem wellFormed_iff_canonical (i : Instr) :
    i.wellFormed = true ↔ ∃ r ∈ opcodeRows, r.number = i.row ∧ r.canonical (encode i) = true := by
  cases i with
  | cls ign => exact wellFormed_iff_of_canonical_iff (canonical_byte_iff 1 0xF0FF 0x0 ign 0xE0) (by decide) rfl rfl
  | ret ign => exact wellFormed_iff_of_canonical_iff (canonical_byte_iff 2 0xF0FF 0x0 ign 0xEE) (by decide) rfl rfl
  | seReg x y ign =>
    exact wellFormed_iff_of_canonical_iff (canonical_nibble_iff 7 0xF000 0x5 x y ign) (by decide) rfl rfl
  | sneReg x y ign =>
    exact wellFormed_iff_of_canonical_iff (canonical_nibble_iff 19 0xF000 0x9 x y ign) (by decide) rfl rfl
  | _ => exact iff_of_true rfl (canonical_of_row_not_mem (by simp [Instr.row, ignoringRows]))

/-! ## The obligations of the family -/

/-- Settles O2: the two bytes of a word make the word again, and `decode_encode` reads it. -/
theorem decodeOfEncodeIsTheInstruction : Obligations.DecodeOfEncodeIsTheInstruction := by
  intro i rest
  simp [bytesOfWord, decodeBytes, wordOfBytes_bytes, decode_encode]

/-- Settles O3: `encode_of_decode`, branch by branch of the decoder. -/
theorem encodeOfDecodeIsTheWord : Obligations.EncodeOfDecodeIsTheWord :=
  fun _ _ => encode_of_decode

/-- Settles O4: the word is an encoded instruction, and each format is a number by its law. -/
theorem operandsAreTheBitsOfTheWord : Obligations.OperandsAreTheBitsOfTheWord := by
  intro op i h
  obtain rfl := encode_of_decode h
  cases i with
  | jp | call | ldI | jpV0 => simp [encode, encodeA_toNat]
  | seReg | sneReg | drw | ldReg | orReg | andReg | xorReg | addReg | sub | shr | subn | shl =>
    simp only [encode, encodeXYN_toNat, BitVec.reduceToNat]
    omega
  | _ =>
    simp only [encode, encodeXI_toNat, BitVec.reduceToNat]
    omega

/-- Settles O5: forward by the table of rows; back because the word is the encoding of the instruction, which its own row
selects, and no other row has that number. -/
theorem decoderFollowsTheOpcodeMap : Obligations.DecoderFollowsTheOpcodeMap := by
  refine fun op r hr => ⟨decodesAsRow_of_selects hr, ?_⟩
  rintro ⟨i, hd, hi⟩
  obtain ⟨q, hq, hn, hs⟩ := Laws.RowSelects.all i
  rwa [encode_of_decode hd, opcodeRow_eq_of_number_eq q hq r hr (hn.trans hi)] at hs

/-- Settles O6: both rows have the number of the one instruction that the word decodes to. -/
theorem noWordMatchesTwoRows : Obligations.NoWordMatchesTwoRows := by
  intro r hr q hq op hrs hqs
  obtain ⟨i, hi, hri⟩ := decodesAsRow_of_selects hr hrs
  obtain ⟨j, hj, hqj⟩ := decodesAsRow_of_selects hq hqs
  obtain rfl : i = j := Decoded.instr.inj (hi.symm.trans hj)
  exact opcodeRow_eq_of_number_eq r hr q hq (hri.symm.trans hqj)

/-- Settles O7: group by group, as the decoder answers. -/
theorem invalidWordsAreExactlyThoseOfTheFourGroups : Obligations.InvalidWordsAreExactlyThoseOfTheFourGroups := by
  intro op
  obtain ⟨hg, hd⟩ | ⟨hg, hd⟩ | ⟨hg, hd⟩ | ⟨hg, hd⟩ | ⟨hg, i, hd, -⟩ := decode_cases op
  · simp [hd, decodeGroup0_invalid_iff, (fieldG_eq_iff op _).1 hg]
  · simp [hd, decodeGroup8_invalid_iff, (fieldG_eq_iff op _).1 hg]
  · simp [hd, decodeGroupE_invalid_iff, (fieldG_eq_iff op _).1 hg]
  · simp [hd, decodeGroupF_invalid_iff, (fieldG_eq_iff op _).1 hg]
  · simp only [List.mem_cons, List.not_mem_nil, or_false, not_or] at hg
    simp [hd, hg]

/-- Settles O1: the decoder run on ten fixed words. -/
theorem sampleWordsDecode : Obligations.SampleWordsDecode := by
  unfold Obligations.SampleWordsDecode
  decide

/-- Settles O8: the word is an encoded instruction, and no arm of `exec` reads the ignored bits. -/
theorem canonicalEncodingsAndIgnoredBits : Obligations.CanonicalEncodingsAndIgnoredBits := by
  refine ⟨fun op i h => ?_, fun _ _ _ _ => ⟨rfl, rfl, rfl, rfl⟩⟩
  rw [← encode_of_decode h]
  exact wellFormed_iff_canonical i

end Sys2Proof

/-! # The Step operation (family `40_step_dispatch.md`)

`step_cases` says the three things a Step can do; each obligation reads its own fields off the three states. -/

namespace Sys2Proof.Machine

/-! ## Which instruction draws, and which load a timer (R126, R128) -/

/-- DRW is row 23 of the opcode map (R95). -/
theorem isDraw_eq_decide_row (i : Instr) : isDraw i = decide (i.row = 23) := by
  cases i <;> rfl

theorem isDraw_iff (i : Instr) : isDraw i = true ↔ ∃ x y n, i = .drw x y n := by
  cases i with
  | drw x y n => exact ⟨fun _ => ⟨x, y, n, rfl⟩, fun _ => rfl⟩
  | _ => simp [isDraw]

/-- If `DT` changed, the instruction is LD DT, Vx, by the frame: no other row may write it. -/
theorem exec_dt_change {i : Instr} {s t : State} (h : exec i s = .next t) (hne : t.dt ≠ s.dt) :
    ∃ x, i = .ldDtVx x ∧ t.dt = s.readV x := by
  have hrow : i.row = 28 := by_contra fun hr => hne ((exec_frame h).dt hr)
  cases i with
  | ldDtVx x =>
    obtain rfl := Host.Outcome.next.inj h
    exact ⟨x, rfl, rfl⟩
  | _ => simp [Instr.row] at hrow

/-- If `ST` changed, the instruction is LD ST, Vx, by the frame: no other row may write it. -/
theorem exec_st_change {i : Instr} {s t : State} (h : exec i s = .next t) (hne : t.st ≠ s.st) :
    ∃ x, i = .ldStVx x ∧ t.st = s.readV x := by
  have hrow : i.row = 29 := by_contra fun hr => hne ((exec_frame h).st hr)
  cases i with
  | ldStVx x =>
    obtain rfl := Host.Outcome.next.inj h
    exact ⟨x, rfl, rfl⟩
  | _ => simp [Instr.row] at hrow

/-! ## The result of a Step (R129) -/

theorem State.stepResult_of_halted {t : State} (h : t.halted = true) : t.stepResult = .decodeError t.errOpcode :=
  if_pos h

theorem State.stepResult_of_not_halted {t : State} (h : t.halted = false) : t.stepResult = .ok :=
  if_neg (by simp [h])

/-- The decode error is reported with the word it latches (R270). -/
@[simp] theorem State.raiseDecodeError_stepResult (s : State) (op : Word) :
    (s.raiseDecodeError op).stepResult = .decodeError op :=
  State.stepResult_of_halted (s.raiseDecodeError_halted op)

/-! ## The obligations of the family -/

/-- Settles O11: a halted core and the decode error leave `HALTED` set and the word latched; an instruction keeps
`HALTED` clear, by the frame. -/
theorem stepReturnsOkOrDecodeError : Obligations.StepReturnsOkOrDecodeError := by
  intro s
  obtain ⟨t, ht⟩ := step_answers s
  refine ⟨t, ht, ?_⟩
  obtain ⟨hh, rfl⟩ | ⟨hh, ⟨why, hd⟩, rfl⟩ | ⟨hh, i, u, hd, hu, rfl⟩ := step_cases ht
  · simp [hh, State.stepResult_of_halted hh]
  · simp [hh, hd]
  · have hf : (u.finish i).halted = false := (exec_frame hu).halted.trans hh
    simp [hh, hd, State.stepResult_of_not_halted hf]

/-- Settles O12: both ends of an executed Step write the flag and the snapshot; the instruction before `finish` keeps
`KEYS_CUR`, by the frame. -/
theorem executedStepWritesDrawFlagAndSnapshot : Obligations.ExecutedStepWritesDrawFlagAndSnapshot := by
  intro s hrun
  obtain ⟨t, ht⟩ := step_answers s
  refine ⟨t, ht, ?_⟩
  obtain ⟨hh, -⟩ | ⟨-, ⟨why, hd⟩, rfl⟩ | ⟨-, i, u, hd, hu, rfl⟩ := step_cases ht
  · simp [hrun] at hh
  · simp [hd]
  · have hk : u.keysCur = s.keysCur := (exec_frame hu).keysCur
    simp [hd, hk, isDraw_iff]

/-- Settles O13: only the instruction's case can change a timer, and there it is one of the two loads. -/
theorem stepNeverDecrementsTimersNorPollsKeys : Obligations.StepNeverDecrementsTimersNorPollsKeys := by
  intro s
  obtain ⟨t, ht⟩ := step_answers s
  refine ⟨t, ht, ?_⟩
  obtain ⟨-, rfl⟩ | ⟨-, -, rfl⟩ | ⟨-, i, u, hd, hu, rfl⟩ := step_cases ht
  · simp
  · simp
  · refine ⟨(exec_frame hu).keysCur, fun hne => ?_, fun hne => ?_⟩
    · obtain ⟨x, rfl, hx⟩ := exec_dt_change hu hne
      exact ⟨x, hd, hx⟩
    · obtain ⟨x, rfl, hx⟩ := exec_st_change hu hne
      exact ⟨x, hd, hx⟩

/-- Settles O9: the word is the fetched one, and `step` has one law per case. -/
theorem stepRunsTheDecodedInstruction : Obligations.StepRunsTheDecodedInstruction := by
  rintro s _ rfl
  refine ⟨step_of_halted, fun i hh hd => ?_, fun why hh hd => step_of_invalid hh hd⟩
  obtain ⟨t, ht⟩ := exec_answers i s.advance
  refine ⟨t, ht, ?_⟩
  rw [step_of_instr hh hd ht, State.finish, isDraw_eq_decide_row]

end Sys2Proof.Machine

/-! # Control flow (family `41_control_flow.md`)

The call stack is a ring of 16 (R143). `State.returnAddress s k` is the address that the return number `k` from `s` pops,
counted from 0: a return moves the count by one, and a push puts its address in front of all but the oldest of them. -/

namespace Sys2Proof.Machine

open Sys2Proof.Safety

/-! ## Skips (R144 to R148) -/

/-- A skip on the condition `p`. -/
theorem State.skipIf_of_iff (s : State) {c : Bool} {p : Prop} [Decidable p] (h : c = true ↔ p) :
    s.skipIf c = { s with pc := if p then s.pc + 2 else s.pc } := by
  rw [State.skipIf_eq, if_congr h rfl rfl]

/-- A skip on the condition `¬ p`. -/
theorem State.skipIf_of_iff_not (s : State) {c : Bool} {p : Prop} [Decidable p] (h : c = true ↔ ¬ p) :
    s.skipIf c = { s with pc := if p then s.pc else s.pc + 2 } := by
  rw [State.skipIf_of_iff s h, ite_not]

theorem beq_iff_toNat_eq (a b : Byte) : (a == b) = true ↔ a.toNat = b.toNat := by
  rw [beq_iff_eq, BitVec.toNat_inj]

theorem bne_iff_toNat_ne (a b : Byte) : (a != b) = true ↔ ¬ a.toNat = b.toNat := by
  rw [bne_iff_ne, ne_eq, BitVec.toNat_inj]

/-! ## Calls and returns (R141, R142) -/

/-- The stack pointer counts up modulo 16. -/
theorem State.push_sp_toNat (s : State) (a : Word) : (s.push a).sp.toNat = (s.sp.toNat + 1) % 16 :=
  BitVec.toNat_add s.sp 1

/-- The stack pointer counts down modulo 16. -/
theorem State.popPc_sp_toNat (s : State) : s.popPc.sp.toNat = (s.sp.toNat + 15) % 16 := by
  rw [State.popPc_sp]
  bv_omega

/-- The slot at the stack pointer takes the pushed address. -/
theorem State.push_stack_top (s : State) (a : Word) : (s.push a).stack[s.sp.toNat]? = some a := by
  simp

/-- The other slots keep theirs. -/
theorem State.push_stack_of_ne (s : State) (a : Word) {j : Nat} (h : j ≠ s.sp.toNat) :
    (s.push a).stack[j]? = s.stack[j]? := by
  rw [State.push_stack, Vector.getElem?_set_ne _ h.symm]

/-! ## The ring of return addresses (R143) -/

/-- The slot that the return number `k` pops: `k + 1` below the stack pointer, modulo 16. -/
def State.returnSlot (s : State) (k : Nat) : Nibble := s.sp - BitVec.ofNat 4 (k + 1)

/-- The address that the return number `k` pops, the next one being number 0. -/
def State.returnAddress (s : State) (k : Nat) : Word := s.stack[(s.returnSlot k).toNat]'(s.returnSlot k).isLt

theorem State.popPc_pc_eq_returnAddress (s : State) : s.popPc.pc = s.returnAddress 0 := rfl

theorem State.popPc_returnSlot (s : State) (k : Nat) : s.popPc.returnSlot k = s.returnSlot (k + 1) := by
  simp only [State.returnSlot, State.popPc_sp, BitVec.ofNat_add]
  bv_omega

/-- After a return the next ones pop what they would have popped one return later. -/
theorem State.popPc_returnAddress (s : State) (k : Nat) : s.popPc.returnAddress k = s.returnAddress (k + 1) := by
  simp only [State.returnAddress, State.popPc_returnSlot, State.popPc_stack]

/-- The next return pops the address of the last call. -/
theorem State.push_returnAddress_zero (s : State) (a : Word) : (s.push a).returnAddress 0 = a :=
  (s.popPc_push a).1

theorem State.push_returnSlot_succ (s : State) (a : Word) (k : Nat) : (s.push a).returnSlot (k + 1) = s.returnSlot k := by
  simp only [State.returnSlot, State.push_sp, BitVec.ofNat_add]
  bv_omega

/-- The slots of the 15 most recent return addresses are not the one at the stack pointer, which the next call takes. -/
theorem State.returnSlot_ne_sp (s : State) {k : Nat} (h : k < 15) : s.returnSlot k ≠ s.sp := by
  simp only [State.returnSlot]
  bv_omega

/-- A call keeps the 15 most recent return addresses, one return further away. -/
theorem State.push_returnAddress_succ (s : State) (a : Word) {k : Nat} (h : k < 15) :
    (s.push a).returnAddress (k + 1) = s.returnAddress k := by
  simp only [State.returnAddress, State.push_returnSlot_succ, State.push_stack]
  exact Vector.getElem_set_ne _ _ fun he => s.returnSlot_ne_sp h (BitVec.eq_of_toNat_eq he.symm)

/-- The list `l`, the most recent first, is what the stack holds of return addresses: at most 16 of them. -/
def HoldsReturns (s : State) (l : List Word) : Prop := ∀ k < 16, ∀ a, l[k]? = some a → s.returnAddress k = a

theorem HoldsReturns.push {s : State} {l : List Word} (h : HoldsReturns s l) (a : Word) :
    HoldsReturns (s.push a) (a :: l)
  | 0, _, _, ha => (s.push_returnAddress_zero a).trans (Option.some.inj ha)
  | k + 1, hk, b, hb => (s.push_returnAddress_succ a (by omega)).trans (h k (by omega) b hb)

/-- Any number of calls puts their return addresses before those the stack holds. -/
theorem callsInRow_holdsReturns (calls : List (Word × Addr)) {s : State} {l : List Word} (h : HoldsReturns s l) :
    ∃ t, callsInRow calls s = .next t ∧ HoldsReturns t ((calls.map Prod.fst).reverse ++ l) := by
  induction calls generalizing s l with
  | nil => exact ⟨s, rfl, h⟩
  | cons c cs ih =>
    have hc : HoldsReturns (({ s with pc := c.1 }.push c.1).jumpTo (addrWord c.2)) (c.1 :: l) :=
      HoldsReturns.push (s := { s with pc := c.1 }) h c.1
    obtain ⟨t, ht, hl⟩ := ih hc
    exact ⟨t, ht, by simpa using hl⟩

/-- Returns in a row load the addresses the stack holds, one after the other, whatever the stack is. -/
theorem returnsInRow_eq (n : Nat) (s : State) : returnsInRow n s = some ((List.range n).map s.returnAddress) := by
  induction n generalizing s with
  | zero => rfl
  | succ n ih =>
    have hs : returnsInRow (n + 1) s = (returnsInRow n s.popPc).map (s.popPc.pc :: ·) := rfl
    rw [hs, ih, List.range_succ_eq_map, List.map_cons, List.map_map, s.popPc_pc_eq_returnAddress]
    exact congrArg (fun l => some (s.returnAddress 0 :: l)) (List.map_congr_left fun k _ => s.popPc_returnAddress k)

/-- Up to 16 returns load the first addresses of the list the stack holds. -/
theorem HoldsReturns.returnsInRow {s : State} {l : List Word} (h : HoldsReturns s l) {n : Nat} (hl : n ≤ l.length)
    (hn : n ≤ 16) : returnsInRow n s = some (l.take n) := by
  rw [returnsInRow_eq]
  refine congrArg some (List.ext_getElem (by simp [hl]) fun k hk _ => ?_)
  have hkn : k < n := by simpa using hk
  simpa using h k (by omega) _ (List.getElem?_eq_getElem (by omega))

/-! ## The obligations of the family -/

/-- Settles O28: `push` from the advanced `pc`, then the jump. -/
theorem callPushesTheReturnAddress : Obligations.CallPushesTheReturnAddress := fun nnn s =>
  ⟨_, rfl, s.push_stack_top s.pc, fun _ hj => s.push_stack_of_ne s.pc hj, s.push_sp_toNat s.pc, addrWord_toNat nnn, rfl,
    fun _ => rfl⟩

/-- Settles O29: `popPc`, which does not write the stack. -/
theorem retPopsTheReturnAddress : Obligations.RetPopsTheReturnAddress := by
  intro ign s
  refine ⟨s.popPc, rfl, s.popPc_sp_toNat, ?_, rfl, fun _ => rfl⟩
  rw [s.popPc_sp_toNat]
  exact s.popPc_slot

/-- Settles O30: the calls leave a stack that holds their return addresses, whatever it held before; the returns load
them. -/
theorem sixteenMostRecentReturnAddressesSurvive : Obligations.SixteenMostRecentReturnAddressesSurvive := by
  intro s calls n hlen hn
  have hnone : HoldsReturns s [] := by simp [HoldsReturns]
  obtain ⟨t, ht, hl⟩ := callsInRow_holdsReturns calls hnone
  rw [List.append_nil, ← List.map_reverse] at hl
  exact ⟨t, ht, hl.returnsInRow (by simpa using hlen) hn⟩

/-- Settles O27: both answers are a jump, and the sum of JP V0 does not wrap. -/
theorem jumpsSetTheProgramCounter : Obligations.JumpsSetTheProgramCounter := fun nnn s =>
  ⟨⟨_, rfl, addrWord_toNat nnn, rfl, fun _ => rfl⟩,
    ⟨_, rfl, addrWord_add_byteWord_toNat nnn (s.readV 0), rfl, fun _ => rfl⟩⟩

/-- Settles O31: each skip is `skipIf` on its condition or on the negation of it. -/
theorem skipsAddTwoWhenTheirConditionHolds : Obligations.SkipsAddTwoWhenTheirConditionHolds := by
  intro x y nn ign s
  refine ⟨congrArg Host.Outcome.next ?seImm, congrArg Host.Outcome.next ?sneImm, congrArg Host.Outcome.next ?seReg,
    congrArg Host.Outcome.next ?sneReg, congrArg Host.Outcome.next ?skp, congrArg Host.Outcome.next ?sknp⟩
  case seImm => exact s.skipIf_of_iff (beq_iff_toNat_eq _ _)
  case sneImm => exact s.skipIf_of_iff_not (bne_iff_toNat_ne _ _)
  case seReg => exact s.skipIf_of_iff (beq_iff_toNat_eq _ _)
  case sneReg => exact s.skipIf_of_iff_not (bne_iff_toNat_ne _ _)
  case skp => exact s.skipIf_of_iff Iff.rfl
  case sknp => exact s.skipIf_of_iff_not (by rw [Bool.not_eq_true', Bool.not_eq_true]; rfl)

end Sys2Proof.Machine

/-! # Registers and ALU (family `42_alu.md`)

Every instruction of the family ends in `writeV` or in `writeResultFlag`; what each of the two leaves unchanged
is said once, and an obligation then compares the results and the flags as numbers. -/

namespace Sys2Proof.Machine

open Sys2Proof.Safety

/-! ## What the register writes leave unchanged (R160, R161) -/

theorem State.writesOnly_writeV (s : State) (x : Reg) (b : Byte) : writesOnly s (s.writeV x b) x b :=
  ⟨fun r => (s.readV_writeV x b r).trans (if_congr eq_comm rfl rfl), s.writeV_eq x b, fun _ => rfl⟩

/-- A result and a flag are written, each given in the form an obligation states it in: the result as a number. -/
theorem State.writesResultFlagOnly_writeResultFlag (s : State) (x : Reg) {b flag : Byte} {n : Nat} {f : Bool}
    (hb : b.toNat = n) (hf : (if f then 1 else 0) = flag) :
    writesResultFlagOnly s (s.writeResultFlag x b f) x (BitVec.ofNat 8 n) flag := by
  have hres : BitVec.ofNat 8 n = b := by rw [← hb, BitVec.ofNat_toNat, BitVec.setWidth_eq]
  refine ⟨fun r => ?_, s.writeResultFlag_eq x b f, fun _ => rfl⟩
  rw [State.readV_writeResultFlag, hf, hres]
  exact if_congr eq_comm rfl (if_congr eq_comm rfl rfl)

/-! ## Flags as bytes (R166 to R170) -/

theorem carry_flag (a b : Byte) :
    (if carry a b then 1 else 0 : Byte) = if 255 < a.toNat + b.toNat then 1 else 0 := by
  simp only [carry_eq, decide_eq_true_eq]

theorem noBorrow_flag (a b : Byte) : (if noBorrow a b then 1 else 0 : Byte) = if b.toNat ≤ a.toNat then 1 else 0 := by
  simp only [noBorrow, decide_eq_true_eq]

theorem lowBit_flag (b : Byte) : (if lowBit b then 1 else 0) = BitVec.ofNat 8 (b.toNat % 2) := by
  obtain h | h := Nat.mod_two_eq_zero_or_one b.toNat
  · simp [lowBit_eq, h]
  · simp [lowBit_eq, h]

theorem highBit_flag (b : Byte) : (if highBit b then 1 else 0) = BitVec.ofNat 8 (b.toNat / 128) := by
  have := b.isLt
  by_cases h : 128 ≤ b.toNat
  · have hdiv : b.toNat / 128 = 1 := by omega
    simp [highBit_eq, h, hdiv]
  · have hdiv : b.toNat / 128 = 0 := by omega
    simp [highBit_eq, h, hdiv]

/-! ## The shifts and `SHIFT_SOURCE` (R168, R170) -/

theorem State.writesResultFlagOnly_shiftRight (s : State) (source : ShiftSource) (x y : Reg) :
    writesResultFlagOnly s (s.shiftRight source x y) x (BitVec.ofNat 8 ((shiftOperand source s x y).toNat / 2))
      (BitVec.ofNat 8 ((shiftOperand source s x y).toNat % 2)) :=
  s.writesResultFlagOnly_writeResultFlag x (shiftRightByte_toNat _) (lowBit_flag _)

theorem State.writesResultFlagOnly_shiftLeft (s : State) (source : ShiftSource) (x y : Reg) :
    writesResultFlagOnly s (s.shiftLeft source x y) x (BitVec.ofNat 8 (2 * (shiftOperand source s x y).toNat % 256))
      (BitVec.ofNat 8 ((shiftOperand source s x y).toNat / 128)) := by
  refine s.writesResultFlagOnly_writeResultFlag x ?_ (highBit_flag _)
  rw [shiftLeftByte_toNat, Nat.mul_comm]

/-! ## The random source (R173) -/

/-- Another number of draws makes no difference to an instruction that makes none. -/
theorem exec_withDraws {i : Instr} {s t : State} (d : Nat) (hi : i.row ≠ 22) (h : exec i s = .next t) :
    exec i { s with draws := d } = .next { t with draws := d } := by
  cases i with
  | rnd => exact absurd rfl hi
  | seImm | sneImm | seReg | sneReg | skp | sknp =>
    obtain rfl := Host.Outcome.next.inj h
    rw [State.skipIf_eq]
    exact congrArg Host.Outcome.next (State.skipIf_eq _ _)
  | ldVxK x =>
    have hrel : ({ s with draws := d } : State).releaseEdges = s.releaseEdges := rfl
    simp only [exec, execLdVxK, hrel] at h ⊢
    split at h <;> obtain rfl := Host.Outcome.next.inj h <;> rfl
  | stRegs x =>
    obtain rfl := Host.Outcome.next.inj ((exec_stRegs_eq x s).symm.trans h)
    exact exec_stRegs_eq x { s with draws := d }
  | ldRegs x =>
    obtain rfl := Host.Outcome.next.inj h
    exact congrArg Host.Outcome.next
      (List.foldl_hom (f := fun u : State => { u with draws := d }) (init := s) fun _ _ => rfl)
  | _ =>
    obtain rfl := Host.Outcome.next.inj h
    rfl

/-! ## The obligations of the family -/

/-- Settles O23: the count by the frame and RND's own case, the independence by `exec_withDraws`. -/
theorem oneDrawPerRndAndNoOther : Obligations.OneDrawPerRndAndNoOther := by
  intro i s d
  obtain ⟨t, ht, hf⟩ := exec_next_frame i s
  refine ⟨t, ht, ?_, fun hi => exec_withDraws d hi ht⟩
  split
  case isTrue hi =>
    cases i with
    | rnd =>
      obtain rfl := Host.Outcome.next.inj ht
      rfl
    | _ => simp [Instr.row] at hi
  case isFalse hi => exact hf.draws hi

/-- Settles O33: each of the three is `writeResultFlag` of the old values. -/
theorem addAndSubtractWriteResultThenFlag : Obligations.AddAndSubtractWriteResultThenFlag := by
  rintro x y s _ _ rfl rfl
  have hdiff (a b : Byte) : (differenceByte a b).toNat = (256 + a.toNat - b.toNat) % 256 := by
    rw [differenceByte_toNat, Nat.add_comm]
  exact ⟨⟨_, rfl, s.writesResultFlagOnly_writeResultFlag x (sumByte_toNat _ _) (carry_flag _ _)⟩,
    ⟨_, rfl, s.writesResultFlagOnly_writeResultFlag x (hdiff _ _) (noBorrow_flag _ _)⟩,
    ⟨_, rfl, s.writesResultFlagOnly_writeResultFlag x (hdiff _ _) (noBorrow_flag _ _)⟩⟩

/-- Settles O34: the shifts of either source; the hardware's source is `V[X]`. -/
theorem shiftsWriteResultThenTheBitShiftedOut : Obligations.ShiftsWriteResultThenTheBitShiftedOut := by
  refine fun x y s => ⟨fun source a ha => ?_, rfl, rfl⟩
  obtain rfl : a = (shiftOperand source s x y).toNat := by
    cases source with
    | vx => exact ha
    | vy => exact ha
  exact ⟨s.writesResultFlagOnly_shiftRight source x y, s.writesResultFlagOnly_shiftLeft source x y⟩

/-- Settles O32: each of the six is `writeV` of the result; the sum is the one modulo 256. -/
theorem loadsAndLogicWriteTheirRegisterOnly : Obligations.LoadsAndLogicWriteTheirRegisterOnly := by
  intro x y nn s
  have hsum : BitVec.ofNat 8 (((s.readV x).toNat + nn.toNat) % 256) = s.readV x + nn :=
    BitVec.eq_of_toNat_eq (by simp)
  have hw (b : Byte) : ∃ t, (.next (s.writeV x b) : Answer) = .next t ∧ writesOnly s t x b :=
    ⟨_, rfl, s.writesOnly_writeV x b⟩
  rw [hsum]
  exact ⟨hw nn, hw (s.readV x + nn), hw (s.readV y), hw (s.readV x ||| s.readV y), hw (s.readV x &&& s.readV y),
    hw (s.readV x ^^^ s.readV y)⟩

/-- Settles O35: `writeV` of the masked byte after one draw. -/
theorem rndMasksAFreeByte : Obligations.RndMasksAFreeByte := by
  intro x nn s
  have hx : (s.drawn.writeV x (s.randomByte &&& nn)).readV x = s.randomByte &&& nn := State.readV_writeV_same ..
  refine ⟨_, rfl, hx, ?_, rfl, fun r hr => State.readV_writeV_of_ne _ _ hr.symm, rfl, fun _ => rfl⟩
  rw [hx, BitVec.and_assoc, BitVec.and_not_self]
  exact BitVec.and_zero

end Sys2Proof.Machine

/-! # The index register and memory (family `43_index_memory.md`)

LD B and LD [I] are one `writeBytes` from `I` up, and LD Vx, [I] writes the registers up to `X`; what each of the two
does is said once, and the obligations read it off. -/

namespace Sys2Proof.Machine

open Sys2Proof.Safety

/-! ## Bytes stored from `I` up (R62, R63, R184, R186) -/

/-- Bytes stored from `I` up change no byte outside theirs. -/
theorem State.memSameOutside_writeBytes (s : State) (bs : List Byte) :
    memSameOutside bs.length s { s with mem := s.mem.writeBytes (s.dataAddr 0) bs } :=
  Memory.read_writeBytes_outside s.mem s.iReg.toNat bs

/-- The three digits are digits, so each fits its byte (R184). -/
theorem bcdDigits_map_toNat (b : Byte) :
    (bcdDigits b).map BitVec.toNat = [b.toNat / 100, b.toNat / 10 % 10, b.toNat % 10] := by
  have := b.isLt
  simp only [bcdDigits, List.map_cons, List.map_nil, BitVec.toNat_ofNat, List.cons.injEq, and_true]
  omega

/-- LD B leaves digit `j` of its register at the data address `I + j` (R184). -/
theorem exec_ldB_read {x : Reg} {s t : State} {j n : Nat} (h : exec (.ldB x) s = .next t)
    (hn : [(s.readV x).toNat / 100, (s.readV x).toNat / 10 % 10, (s.readV x).toNat % 10][j]? = some n) :
    (t.mem.read (s.dataAddr j)).toNat = n := by
  obtain rfl := Host.Outcome.next.inj h
  rw [← bcdDigits_map_toNat, List.getElem?_map, Option.map_eq_some_iff] at hn
  obtain ⟨b, hb, rfl⟩ := hn
  exact congrArg BitVec.toNat
    (Memory.read_writeBytes_inside s.mem s.iReg.toNat _ j b hb (by simp [bcdDigits, memSize]))

/-! ## Registers loaded from `I` up (R187) -/

/-- LD Vx, [I] loads the registers up to `X` and no other. -/
theorem exec_ldRegs_readV {x : Reg} {s t : State} (h : exec (.ldRegs x) s = .next t) (r : Reg) :
    t.readV r = if r.toNat ≤ x.toNat then s.mem.read (s.dataAddr r.toNat) else s.readV r := by
  obtain rfl := Host.Outcome.next.inj h
  exact (s.loadBlock_readV (x.toNat + 1) x.isLt r).trans (if_congr Nat.lt_succ_iff rfl rfl)

/-- LD Vx, [I] changes the registers only. -/
theorem exec_ldRegs_eq {x : Reg} {s t : State} (h : exec (.ldRegs x) s = .next t) : t = { s with v := t.v } := by
  obtain rfl := Host.Outcome.next.inj h
  obtain ⟨v, hv⟩ := s.loadBlock_eq (blockIndices x)
  rw [hv]

/-! ## The obligations of the family -/

/-- Settles O16: the index part of the frame. -/
theorem indexChangedOnlyByItsThreeInstructions : Obligations.IndexChangedOnlyByItsThreeInstructions := by
  intro i s
  obtain ⟨t, ht, hf⟩ := exec_next_frame i s
  exact ⟨t, ht, hf.iReg⟩

/-- Settles O36: each answer writes `iReg` only; the sum is a word's, and the product of a byte with 5 fits a word. -/
theorem indexInstructionsWriteTheIndexOnly : Obligations.IndexInstructionsWriteTheIndexOnly := by
  intro nnn x s
  have hsum : (s.iReg + byteWord (s.readV x)).toNat = (s.iReg.toNat + (s.readV x).toNat) % 65536 := by
    rw [BitVec.toNat_add, byteWord_toNat]
  exact ⟨⟨_, rfl, addrWord_toNat nnn, rfl, fun _ => rfl⟩, ⟨_, rfl, hsum, rfl, fun _ => rfl⟩,
    ⟨_, rfl, glyphAddr_toNat (s.readV x), rfl, fun _ => rfl⟩⟩

/-- Settles O37: the three digits by `exec_ldB_read`; the answer is one write of three bytes. -/
theorem ldBStoresThreeDecimalDigits : Obligations.LdBStoresThreeDecimalDigits := fun x s =>
  ⟨_, rfl, exec_ldB_read (x := x) (j := 0) rfl rfl, exec_ldB_read (x := x) (j := 1) rfl rfl,
    exec_ldB_read (x := x) (j := 2) rfl rfl, s.memSameOutside_writeBytes (bcdDigits (s.readV x)), rfl⟩

/-- Settles O38: the stored bytes by `exec_stRegs_read`; the answer is one write of `X + 1` bytes. -/
theorem blockStoreWritesRegistersToMemory : Obligations.BlockStoreWritesRegistersToMemory := by
  intro x s
  have hout := s.memSameOutside_writeBytes ((blockIndices x).map fun i => s.readV (blockReg i))
  rw [List.length_map, blockIndices, List.length_range] at hout
  exact ⟨_, exec_stRegs_eq x s, fun r hr => exec_stRegs_read (exec_stRegs_eq x s) hr, hout, rfl⟩

/-- Settles O39: the registers by `exec_ldRegs_readV`, memory by the frame. -/
theorem blockLoadReadsRegistersFromMemory : Obligations.BlockLoadReadsRegistersFromMemory := by
  intro x s
  obtain ⟨t, ht, hf⟩ := exec_next_frame (.ldRegs x) s
  have hmem : t.mem = s.mem := hf.mem (by simp [Instr.row])
  exact ⟨t, ht, exec_ldRegs_readV ht, exec_ldRegs_eq ht, fun a => by rw [hmem]⟩

/-- Settles O40: the store keeps `I`, so the load reads the addresses that the store wrote. -/
theorem blockStoreThenLoadRestoresRegisters : Obligations.BlockStoreThenLoadRestoresRegisters := by
  intro x s between
  obtain ⟨t, ht, hf⟩ := exec_next_frame (.stRegs x) s
  obtain ⟨u, hu⟩ := exec_answers (.ldRegs x) { t with v := between }
  have hI : t.iReg = s.iReg := hf.iReg (by simp [Instr.row])
  refine ⟨t, u, ht, hu, fun r hr => ?_⟩
  calc u.readV r
      _ = t.mem.read (t.dataAddr r.toNat) := (exec_ldRegs_readV hu r).trans (if_pos hr)
      _ = t.mem.read (s.dataAddr r.toNat) := by rw [State.dataAddr, State.dataAddr, hI]
      _ = s.readV r := exec_stRegs_read ht hr

end Sys2Proof.Machine

/-! # The display (family `44_display.md`)

`State.drwBit` is the sprite bit that a DRW puts on a cell. What DRW does to a cell and to `VF` is said once in its
terms, and the bit is the same before and after the draw; the obligations about drawing follow from these facts. -/

namespace Sys2Proof.Machine

open Sys2Proof.Safety

/-! ## What DRW draws (R202, R204) -/

/-- The operands of DRW are read after `VF` is cleared: `VF` itself reads 0 (R202). -/
theorem State.readV_clearFlag (s : State) (r : Reg) : (s.writeFlag false).readV r = if r = 15 then 0 else s.readV r :=
  (State.readV_writeFlag s false r).trans (if_congr eq_comm rfl rfl)

/-- The sprite bit that DRW Vx, Vy, n puts on the cell `(cx, cy)`, clipped at the edges (R202, R204). -/
def State.drwBit (s : State) (x y : Reg) (n : Nibble) (cx cy : Nat) : Bool :=
  spriteBit s.mem (s.dataAddr 0) (startColumn ((s.writeFlag false).readV x)) (startRow ((s.writeFlag false).readV y))
    n.toNat cx cy

theorem State.startColumn_clearFlag (s : State) (x : Reg) :
    startColumn ((s.writeFlag false).readV x) = if x = 15 then 0 else (s.readV x).toNat % 64 := by
  rw [State.readV_clearFlag, apply_ite startColumn]
  rfl

theorem State.startRow_clearFlag (s : State) (y : Reg) :
    startRow ((s.writeFlag false).readV y) = if y = 15 then 0 else (s.readV y).toNat % 32 := by
  rw [State.readV_clearFlag, apply_ite startRow]
  rfl

section Draw

variable {x y : Reg} {n : Nibble} {s t : State} (h : exec (.drw x y n) s = .next t)
include h

/-- DRW XORs each cell with its sprite bit (R202). -/
theorem exec_drw_cell {cx cy : Nat} (hx : cx < 64) (hy : cy < 32) :
    t.disp.cell cx cy = (s.disp.cell cx cy ^^ s.drwBit x y n cx cy) := by
  obtain rfl := Host.Outcome.next.inj h
  exact ((s.writeFlag false).spriteCanvas_spec x y n).1 cx hx cy hy

/-- DRW leaves the collision bit of its drawing loop in `VF` (R203). -/
theorem exec_drw_flag : t.readV 15 = if ((s.writeFlag false).spriteCanvas x y n).collided then 1 else 0 := by
  obtain rfl := Host.Outcome.next.inj h
  exact State.readV_writeFlag _ _ 15

theorem exec_drw_flag_zero_or_one : t.readV 15 = 0 ∨ t.readV 15 = 1 := by
  rw [exec_drw_flag h]
  split
  · exact .inr rfl
  · exact .inl rfl

/-- `VF` ends as 1 exactly when a drawn cell was on (R203). -/
theorem exec_drw_flag_iff :
    t.readV 15 = 1 ↔ ∃ cx < 64, ∃ cy < 32, s.drwBit x y n cx cy = true ∧ s.disp.cell cx cy = true := by
  refine Iff.trans ?_ ((s.writeFlag false).spriteCanvas_spec x y n).2
  rw [exec_drw_flag h]
  cases ((s.writeFlag false).spriteCanvas x y n).collided <;> simp

/-- DRW changes the registers and the display only (R202). -/
theorem exec_drw_eq : t = { s with v := t.v, disp := t.disp } := by
  obtain rfl := Host.Outcome.next.inj h
  rfl

theorem exec_drw_readV {r : Reg} (hr : r ≠ 15) : t.readV r = s.readV r :=
  (exec_frame h).readV r (beq_eq_false_iff_ne.2 hr)

/-- The same DRW draws the same bits once more: memory, `I` and the operands with `VF` cleared are as before (R205). -/
theorem exec_drw_drwBit : t.drwBit x y n = s.drwBit x y n := by
  have hV (r : Reg) : (t.writeFlag false).readV r = (s.writeFlag false).readV r := by
    rw [State.readV_clearFlag, State.readV_clearFlag]
    split
    · rfl
    · exact exec_drw_readV h ‹_›
  funext cx cy
  rw [State.drwBit, State.drwBit, hV, hV, exec_drw_eq h]
  rfl

end Draw

/-! ## Which instructions read the display (R200) -/

/-- Another display makes no difference to an instruction other than DRW: CLS ends with all cells off, any other with
the display it began with. -/
theorem exec_withDisp {i : Instr} {s t : State} (d : Display) (hi : i.row ≠ 23) (h : exec i s = .next t) :
    exec i { s with disp := d } = .next { t with disp := if i.row = 1 then Display.blank else d } := by
  cases i with
  | drw => exact absurd rfl hi
  | seImm | sneImm | seReg | sneReg | skp | sknp =>
    obtain rfl := Host.Outcome.next.inj h
    rw [State.skipIf_eq]
    exact congrArg Host.Outcome.next (State.skipIf_eq _ _)
  | ldVxK x =>
    have hrel : ({ s with disp := d } : State).releaseEdges = s.releaseEdges := rfl
    simp only [exec, execLdVxK, hrel] at h ⊢
    split at h <;> obtain rfl := Host.Outcome.next.inj h <;> rfl
  | stRegs x =>
    obtain rfl := Host.Outcome.next.inj ((exec_stRegs_eq x s).symm.trans h)
    exact exec_stRegs_eq x { s with disp := d }
  | ldRegs x =>
    obtain rfl := Host.Outcome.next.inj h
    exact congrArg Host.Outcome.next
      (List.foldl_hom (f := fun u : State => { u with disp := d }) (init := s) fun _ _ => rfl)
  | _ =>
    obtain rfl := Host.Outcome.next.inj h
    rfl

/-! ## The obligations of the family -/

/-- Settles O43: the cells, the flag and the frame of DRW, with its start coordinates written out. -/
theorem drwXorsEachCellAndReportsCollision : Obligations.DrwXorsEachCellAndReportsCollision := by
  rintro x y n s x0 y0 rfl rfl
  rw [← State.startColumn_clearFlag, ← State.startRow_clearFlag]
  obtain ⟨t, ht, hf⟩ := exec_next_frame (.drw x y n) s
  have hmem : t.mem = s.mem := hf.mem (by simp [Instr.row])
  exact ⟨t, ht, fun cx hx cy hy => exec_drw_cell ht hx hy, exec_drw_flag_zero_or_one ht, exec_drw_flag_iff ht,
    fun r hr => exec_drw_readV ht hr, exec_drw_eq ht, fun a => by rw [hmem]⟩

/-- Settles O44: both draws XOR the same bits, so the second undoes the first, and a drawn cell that is on in between is
one that the first draw turned on. -/
theorem drawingTwiceRestoresTheDisplay : Obligations.DrawingTwiceRestoresTheDisplay := by
  intro x y n s
  obtain ⟨t, ht⟩ := exec_answers (.drw x y n) s
  obtain ⟨u, hu⟩ := exec_answers (.drw x y n) t
  have hbit : t.drwBit x y n = s.drwBit x y n := exec_drw_drwBit ht
  refine ⟨t, u, ht, hu, Display.ext_cell fun cx hx cy hy => ?_, (exec_drw_flag_iff hu).trans ?_⟩
  · rw [exec_drw_cell hu hx hy, exec_drw_cell ht hx hy, hbit, Bool.xor_assoc, Bool.xor_self, Bool.xor_false]
  · refine exists_congr fun cx => and_congr_right fun hx => exists_congr fun cy => and_congr_right fun hy => ?_
    rw [hbit, exec_drw_cell ht hx hy]
    cases s.disp.cell cx cy <;> simp

/-- Settles O42: the state after CLS does not depend on the display before it, and on a cleared display no drawn cell is
on. -/
theorem clsTurnsEveryCellOff : Obligations.ClsTurnsEveryCellOff := by
  intro ign s
  refine ⟨{ s with disp := Display.blank }, rfl, fun x _ y _ => Display.cell_blank x y, rfl, fun _ => rfl,
    fun x y n d => ?_⟩
  obtain ⟨u, hu⟩ := exec_answers (.drw x y n) { s with disp := Display.blank }
  have hflag : u.readV 15 = 0 := (exec_drw_flag_zero_or_one hu).resolve_right fun h1 => by
    obtain ⟨cx, -, cy, -, -, hon⟩ := (exec_drw_flag_iff hu).1 h1
    simp at hon
  exact ⟨u, _, hu, hflag, rfl, hu⟩

/-- Settles O19: the display part of the frame, and the run with another display. -/
theorem displayChangedByClsAndDrwReadByDrwOnly : Obligations.DisplayChangedByClsAndDrwReadByDrwOnly := by
  intro i s d
  obtain ⟨t, ht, hf⟩ := exec_next_frame i s
  exact ⟨t, ht, hf.disp, fun hi => ⟨_, exec_withDisp d hi ht⟩⟩

end Sys2Proof.Machine

/-! # Timers and keys (family `45_timers_keys.md`)

LD Vx, K does one of two things, by the release edges `KEYS_PREV and (not KEYS_CUR)`; a Step of each is said once. A
waiting Step leaves `KEYS_PREV` equal to `KEYS_CUR`, so that it finds no edge when it is repeated. -/

namespace Sys2Proof.Machine

/-! ## Release edges (R226) -/

/-- A release edge, key by key: pressed in `KEYS_PREV` and not in `KEYS_CUR`. -/
theorem State.releaseEdges_getLsbD_iff (s : State) (k : Nat) :
    s.releaseEdges.getLsbD k = true ↔ s.keysPrev.getLsbD k = true ∧ s.keysCur.getLsbD k = false := by
  have hlt : s.keysPrev.getLsbD k = true → k < 16 := BitVec.lt_of_getLsbD
  simp only [State.releaseEdges, BitVec.getLsbD_and, BitVec.getLsbD_not, Bool.and_eq_true, Bool.not_eq_true',
    decide_eq_true_eq]
  exact and_congr_right fun hp => and_iff_right (hlt hp)

theorem State.releaseEdges_eq_zero_iff (s : State) :
    s.releaseEdges = 0 ↔ ∀ k < 16, ¬(s.keysPrev.getLsbD k = true ∧ s.keysCur.getLsbD k = false) := by
  simp only [← s.releaseEdges_getLsbD_iff, Bool.not_eq_true]
  exact ⟨fun h k _ => by simp [h], fun h => BitVec.eq_of_getLsbD_eq fun k hk => by simp [h k hk]⟩

theorem State.leastKey_releaseEdges_eq_some_iff (s : State) {k : Nat} :
    leastKey s.releaseEdges = some k ↔ k < 16 ∧ (s.keysPrev.getLsbD k = true ∧ s.keysCur.getLsbD k = false) ∧
      ∀ j < k, ¬(s.keysPrev.getLsbD j = true ∧ s.keysCur.getLsbD j = false) := by
  simp only [leastKey_eq_some, ← s.releaseEdges_getLsbD_iff, Bool.not_eq_true]

/-! ## LD Vx, K (R227) -/

section KeyWait

variable {x : Reg} {s : State}

theorem exec_ldVxK_of_no_edge (h : s.releaseEdges = 0) : exec (.ldVxK x) s = .next s.rewind := by
  simp only [exec, execLdVxK, leastKey_eq_none.2 h]

theorem exec_ldVxK_of_leastKey {k : Nat} (h : leastKey s.releaseEdges = some k) :
    exec (.ldVxK x) s = .next (s.writeV x (BitVec.ofNat 8 k)) := by
  simp only [exec, execLdVxK, h]

/-- Back from the advanced `pc` to the instruction. -/
theorem State.advance_rewind (s : State) : s.advance.rewind = s := by
  have hpc : s.pc + 2 - 2 = s.pc := BitVec.add_sub_cancel ..
  simp only [State.advance, State.rewind, State.jumpTo, hpc]

/-- The state a waiting Step leaves: the snapshot and the draw flag are written, as after every executed Step (R126,
R127). -/
def State.waited (s : State) : State := { s with drawFlag := false, keysPrev := s.keysCur }

theorem State.waited_releaseEdges (s : State) : s.waited.releaseEdges = 0 := BitVec.and_not_self ..

theorem step_ldVxK_of_no_edge (hh : s.halted = false) (hd : decode s.fetchWord = .instr (.ldVxK x))
    (hrel : s.releaseEdges = 0) : step s = .next s.waited := by
  have hx : exec (.ldVxK x) s.advance = .next s := by
    rw [exec_ldVxK_of_no_edge (s := s.advance) hrel, s.advance_rewind]
  exact step_of_instr hh hd hx

theorem step_ldVxK_of_leastKey {k : Nat} (hh : s.halted = false) (hd : decode s.fetchWord = .instr (.ldVxK x))
    (hk : leastKey s.releaseEdges = some k) :
    step s = .next ((s.advance.writeV x (BitVec.ofNat 8 k)).finish (.ldVxK x)) :=
  step_of_instr hh hd (exec_ldVxK_of_leastKey hk)

end KeyWait

/-! ## Requests in a row (R240) -/

theorem serveAll_cons_of_next {r : Request} {rs : List Request} {s t : State} (h : serve r s = .next t) :
    serveAll (r :: rs) s = serveAll rs t := by
  rw [serveAll, h]

/-! ## The obligations of the family -/

/-- Settles O46: the two cases of the instruction, with the release edges written out key by key. -/
theorem keyWaitTakesTheLeastReleasedKey : Obligations.KeyWaitTakesTheLeastReleasedKey := by
  refine fun x s => ⟨fun hno => exec_ldVxK_of_no_edge (s.releaseEdges_eq_zero_iff.2 hno), fun k hk hp hc hlt => ?_⟩
  have hleast : leastKey s.releaseEdges = some k := s.leastKey_releaseEdges_eq_some_iff.2 ⟨hk, ⟨hp, hc⟩, hlt⟩
  exact ⟨_, exec_ldVxK_of_leastKey hleast, s.writesOnly_writeV x _⟩

/-- Settles O47: a waiting Step leaves a state without an edge, from which a further one changes nothing. -/
theorem keyWaitHoldsAcrossRepeatedSteps : Obligations.KeyWaitHoldsAcrossRepeatedSteps := by
  intro n x s hh hd hrel
  induction n generalizing s with
  | zero => exact serveAll_cons_of_next (step_ldVxK_of_no_edge hh hd hrel)
  | succ n ih =>
    calc serveAll (.step :: List.replicate (n + 1) .step) s
      _ = serveAll (List.replicate (n + 1) .step) s.waited :=
        serveAll_cons_of_next (step_ldVxK_of_no_edge hh hd hrel)
      _ = .next s.waited := ih s.waited hh hd s.waited_releaseEdges

/-- Settles O48: the only release edge is the least one. -/
theorem oneReleaseEdgeResolvesTheKeyWait : Obligations.OneReleaseEdgeResolvesTheKeyWait := by
  intro k x s hk hh hd honly
  have hleast : leastKey s.releaseEdges = some k :=
    s.leastKey_releaseEdges_eq_some_iff.2
      ⟨hk, (honly k hk).2 rfl, fun j hj he => hj.ne ((honly j (hj.trans hk)).1 he)⟩
  refine ⟨_, step_ldVxK_of_leastKey hh hd hleast, ?_, rfl⟩
  have hv : ((s.advance.writeV x (BitVec.ofNat 8 k)).finish (.ldVxK x)).readV x = BitVec.ofNat 8 k :=
    s.advance.readV_writeV_same x _
  rw [hv, BitVec.toNat_ofNat]
  omega

/-- Settles O45: one register write and two timer writes. -/
theorem timerInstructionsMoveTheTimers : Obligations.TimerInstructionsMoveTheTimers := fun x s =>
  ⟨⟨_, rfl, s.writesOnly_writeV x s.dt⟩, ⟨_, rfl, rfl, rfl, fun _ => rfl⟩, ⟨_, rfl, rfl, rfl, fun _ => rfl⟩⟩

end Sys2Proof.Machine

/-! # The requests of the Host Shell (family `50_host_interface.md`)

Every request answers a next state, so what each request keeps holds after any list of them (`serveAll_induction`), and
a list served in parts is served as a whole (`serveAll_append_of_next`). The requests of one moment are four such parts,
in R240's order. -/

namespace Sys2Proof.Machine

open Sys2Proof.Safety

/-! ## One request, and requests in a row (R240) -/

theorem serve_answers (r : Request) (s : State) : ∃ t, serve r s = .next t := by
  cases r with
  | step => exact step_answers s
  | reset | load | setKeys | tick | read => exact ⟨_, rfl⟩

/-- What each request of a list keeps holds of the state the whole list answers. -/
theorem serveAll_induction {P : State → Prop} (rs : List Request)
    (hkeep : ∀ r ∈ rs, ∀ s t, serve r s = .next t → P s → P t) {s : State} (hs : P s) :
    ∃ t, serveAll rs s = .next t ∧ P t := by
  induction rs generalizing s with
  | nil => exact ⟨s, rfl, hs⟩
  | cons r rs ih =>
    obtain ⟨u, hu⟩ := serve_answers r s
    have hPu : P u := hkeep r List.mem_cons_self s u hu hs
    rw [serveAll_cons_of_next hu]
    exact ih (fun q hq => hkeep q (List.mem_cons_of_mem r hq)) hPu

theorem serveAll_append_of_next {rs qs : List Request} {s t : State} (h : serveAll rs s = .next t) :
    serveAll (rs ++ qs) s = serveAll qs t := by
  induction rs generalizing s with
  | nil => rw [← Host.Outcome.next.inj h, List.nil_append]
  | cons r rs ih =>
    obtain ⟨u, hu⟩ := serve_answers r s
    rw [serveAll_cons_of_next hu] at h
    rw [List.cons_append, serveAll_cons_of_next hu, ih h]

/-! ## The invariant (R30, R241, R247, R300) -/

/-- The error latch stays truthful when none of the five registers it speaks of has changed. -/
theorem latchInv_of_eq {s t : State} (h : LatchInv s) (hpc : t.pc = s.pc) (hdraw : t.drawFlag = s.drawFlag)
    (hh : t.halted = s.halted) (hop : t.errOpcode = s.errOpcode) (hepc : t.errPc = s.errPc) : LatchInv t := by
  obtain ⟨hinvalid, hpc', hdraw', hclear⟩ := h
  constructor
  all_goals simpa only [hpc, hdraw, hh, hop, hepc]

/-- Reset empties the list of cells and clears the latch. -/
theorem inv_resetMachine (s : State) : Inv s.resetMachine where
  memory := Memory.nil_wf
  latch := { invalid := nofun, pc := nofun, draw := nofun, clear := fun _ => ⟨rfl, rfl⟩ }

theorem serve_inv {r : Request} {s t : State} (hserve : serve r s = .next t) (h : Inv s) : Inv t := by
  cases r with
  | step => exact step_inv hserve h
  | reset rate =>
    obtain rfl := Host.Outcome.next.inj hserve
    exact inv_resetMachine s
  | load rom =>
    obtain rfl := Host.Outcome.next.inj hserve
    exact ⟨Memory.writeBytes_wf h.memory _ _, latchInv_of_eq h.latch rfl rfl rfl rfl rfl⟩
  | setKeys | tick =>
    obtain rfl := Host.Outcome.next.inj hserve
    exact ⟨h.memory, latchInv_of_eq h.latch rfl rfl rfl rfl rfl⟩
  | read =>
    obtain rfl := Host.Outcome.next.inj hserve
    exact h

/-! ## Load (R247) -/

/-- Byte `i` of the ROM, as long as it has room, is read at `0x200 + i`. -/
theorem State.load_read_rom (s : State) {rom : List Byte} {i : Nat} {b : Byte} (hi : i < romRoom)
    (hb : rom[i]? = some b) : (s.load rom).mem.read (romBase + i) = b := by
  have hbyte : (rom.take romRoom)[i]? = some b := by rw [List.getElem?_take_of_lt hi, hb]
  have hlen : (rom.take romRoom).length ≤ memSize := (List.length_take_le _ _).trans (by decide)
  exact Memory.read_writeBytes_inside s.mem romBase _ i b hbyte hlen

/-- The room ends where memory ends, so no byte of the ROM wraps to address 0. -/
theorem State.load_read_of_outside (s : State) {rom : List Byte} {a : Nat} (ha : a < memSize)
    (hout : a < romBase ∨ romBase + rom.length ≤ a) : (s.load rom).mem.read a = s.mem.read a := by
  refine Memory.read_writeBytes_outside s.mem romBase _ a fun j hj => ?_
  rw [List.length_take] at hj
  unfold romBase romRoom memSize at *
  omega

/-! ## The requests of one moment (R240, R274) -/

theorem serveMoment_of_reset {m : Moment} {rate : Nat} (h : m.reset = some rate) (s : State) :
    serveMoment m s = serve (.reset rate) s := by
  rw [serveMoment, Moment.requests, h]
  rfl

theorem serveAll_optional_load (rom : Option (List Byte)) (s : State) :
    serveAll (rom.toList.map Request.load) s = .next (rom.elim s s.load) := by cases rom <;> rfl

theorem serveAll_optional_setKeys (mask : Option Word) (s : State) :
    serveAll (mask.toList.map Request.setKeys) s = .next (mask.elim s s.setKeys) := by cases mask <;> rfl

theorem serveAll_optional_step (made : Bool) (s : State) :
    ∃ t, serveAll (if made then [.step] else []) s = .next t ∧ if made = true then step s = .next t else t = s := by
  cases made with
  | false => exact ⟨s, rfl, rfl⟩
  | true =>
    obtain ⟨t, ht⟩ := step_answers s
    exact ⟨t, serveAll_cons_of_next (r := .step) ht, ht⟩

theorem serveAll_optional_tick (made : Bool) (s : State) :
    serveAll (if made then [.tick] else []) s = .next (if made = true then s.tick else s) := by cases made <;> rfl

/-! ## The obligations of the family -/

/-- Settles O26: every request keeps the invariant, the Step by `step_inv`. -/
theorem everyRunOfRequestsKeepsTheInvariant : Obligations.EveryRunOfRequestsKeepsTheInvariant :=
  fun rs _ hs => serveAll_induction rs (fun _ _ _ _ => serve_inv) hs

/-- Settles O51: the bytes inside the room and the addresses outside the ROM; the other fields by definition. -/
theorem loadPlacesTheRomAndTruncates : Obligations.LoadPlacesTheRomAndTruncates := fun _ s =>
  ⟨_, rfl, fun _ _ hi hb => s.load_read_rom hi hb, fun _ ha hout => s.load_read_of_outside ha hout, rfl⟩

/-- Settles O55: with no Reset, the four parts of the moment served one after another. -/
theorem simultaneousRequestsHaveAFixedOrder : Obligations.SimultaneousRequestsHaveAFixedOrder := by
  refine fun m s => ⟨fun rate h => serveMoment_of_reset h s, fun h => ?_⟩
  have hloaded := serveAll_optional_load m.load s
  have hkeyed := serveAll_optional_setKeys m.setKeys (m.load.elim s s.load)
  obtain ⟨stepped, hstepped, hstep⟩ := serveAll_optional_step m.step
    (m.setKeys.elim (m.load.elim s s.load) (m.load.elim s s.load).setKeys)
  have hticked := serveAll_optional_tick m.tick stepped
  refine ⟨_, _, stepped, rfl, rfl, hstep, ?_⟩
  rw [serveMoment, Moment.requests, h]
  simp only [List.append_assoc]
  rw [serveAll_append_of_next hloaded, serveAll_append_of_next hkeyed, serveAll_append_of_next hstepped, hticked]

/-- Settles O50: SetKeys writes one field, which GetKeys reads. -/
theorem setKeysReplacesTheMask : Obligations.SetKeysReplacesTheMask := fun _ _ => ⟨_, rfl, rfl, rfl, fun _ => rfl⟩

end Sys2Proof.Machine

/-! # The decode error, the halt and the Tick (family `60_exceptions.md`)

While the core is halted, a request other than Reset writes memory, `KEYS_CUR` or a timer and nothing else (`HaltFrame`),
so the halt and its latched word stay. A timer counts down as the naturals subtract, stopping at 0 (`tickTimer_toNat`). -/

namespace Sys2Proof.Machine

/-! ## The Tick (R280) -/

/-- "A timer at 0 stays at 0" (R280), which is the truncated subtraction of the naturals. -/
theorem tickTimer_toNat (b : Byte) : (tickTimer b).toNat = b.toNat - 1 := by
  by_cases h : b = 0
  · simp [tickTimer, h]
  · rw [tickTimer, if_neg h]
    bv_omega

/-- One Tick and then `n` more make `n + 1`. -/
theorem tickTimer_toNat_sub (b : Byte) (n : Nat) : (tickTimer b).toNat - n = b.toNat - (n + 1) := by
  rw [tickTimer_toNat, Nat.sub_sub, Nat.add_comm]

/-! ## The halt (R121, R275) -/

/-- State `t` differs from `s` at most in what a request other than Reset can write while the core is halted: memory,
`KEYS_CUR` and the timers. -/
def HaltFrame (s t : State) : Prop := t = { s with mem := t.mem, keysCur := t.keysCur, dt := t.dt, st := t.st }

theorem HaltFrame.refl (s : State) : HaltFrame s s := rfl

theorem HaltFrame.trans {s t u : State} (hst : HaltFrame s t) (htu : HaltFrame t u) : HaltFrame s u := by
  unfold HaltFrame at *
  rw [htu, hst]

theorem HaltFrame.halted {s t : State} (h : HaltFrame s t) : t.halted = s.halted := (congrArg State.halted h :)

theorem HaltFrame.errOpcode {s t : State} (h : HaltFrame s t) : t.errOpcode = s.errOpcode :=
  (congrArg State.errOpcode h :)

/-- The Step changes nothing by the guard of R121; the other requests write by definition what the frame leaves free. -/
theorem serve_haltFrame {r : Request} {s t : State} (hserve : serve r s = .next t) (hh : s.halted = true)
    (hr : ∀ rate, r ≠ .reset rate) : HaltFrame s t := by
  cases r with
  | reset rate => exact absurd rfl (hr rate)
  | step =>
    obtain rfl := Host.Outcome.next.inj ((step_of_halted hh).symm.trans hserve)
    exact HaltFrame.refl s
  | load | setKeys | tick | read =>
    obtain rfl := Host.Outcome.next.inj hserve
    rfl

/-! ## The obligations of the family -/

/-- Settles O49, by induction on the number of Ticks, the first of them served first. -/
theorem ticksCountTheTimersDownToZero : Obligations.TicksCountTheTimersDownToZero := by
  intro n
  induction n with
  | zero => exact fun s => ⟨s, rfl, rfl, rfl, rfl, fun _ => rfl⟩
  | succ n ih =>
    intro s
    obtain ⟨t, ht, hdt, hst, hframe, hmem⟩ := ih s.tick
    have hserve : serveAll (List.replicate (n + 1) .tick) s = .next t :=
      (serveAll_cons_of_next (r := .tick) rfl).trans ht
    exact ⟨t, hserve, hdt.trans (tickTimer_toNat_sub s.dt n), hst.trans (tickTimer_toNat_sub s.st n), hframe, hmem⟩

/-- Settles O54: each request keeps the frame of the first state, and so its halt and its latched word. -/
theorem onlyResetEndsTheHalt : Obligations.OnlyResetEndsTheHalt := by
  intro rs s hh hno
  have hkeep : ∀ r ∈ rs, ∀ u t, serve r u = .next t → HaltFrame s u → HaltFrame s t :=
    fun r hr u t hserve hu =>
      hu.trans (serve_haltFrame hserve (hu.halted.trans hh) fun rate he => hno rate (he ▸ hr))
  obtain ⟨t, ht, hframe⟩ := serveAll_induction rs hkeep (HaltFrame.refl s)
  have hhalted : t.halted = true := hframe.halted.trans hh
  refine ⟨t, ht, hhalted, ?_, hframe⟩
  rw [State.stepResult_of_halted hhalted, hframe.errOpcode]

/-- Settles O10: the Step is the decode error's entry, whose fields are the writes of R271. -/
theorem decodeErrorEntryWritesExactlySix : Obligations.DecodeErrorEntryWritesExactlySix := fun s _ hh hd =>
  ⟨_, step_of_invalid hh hd, rfl, rfl, rfl, rfl, rfl, rfl, s.raiseDecodeError_stepResult _, fun _ => rfl, rfl⟩

end Sys2Proof.Machine

/-! # Reset and the first Step after it (family `70_reset_and_hazards.md`)

Memory after Reset lists no cell, so every address reads as its reset contents: the font below 80, and 0 from there on
(`read_resetMachine_font`, `read_resetMachine_of_ge`). -/

namespace Sys2Proof

/-- The font covers every address below 80: the glyph of a digit, and a byte of that glyph (R27). -/
theorem Config.font_eq_some (c : Config) {a : Nat} (ha : a < 80) : ∃ b, c.font a = some b := by
  have hdigit : a / 5 < 16 := by omega
  have hbyte : a % 5 < 5 := Nat.mod_lt a (by decide)
  exact ⟨c.glyphs[a / 5][a % 5], by simp [Config.font, hdigit, hbyte]⟩

/-- There is no seventeenth glyph (R27). -/
theorem Config.font_eq_none (c : Config) {a : Nat} (ha : 80 ≤ a) : c.font a = none := by
  have hdigit : 16 ≤ a / 5 := by omega
  simp [Config.font, hdigit]

end Sys2Proof

namespace Sys2Proof.Machine

open Sys2Proof.Safety

/-! ## Memory after Reset (R70, R300) -/

theorem resetByte_of_font {a : Nat} {b : Byte} (h : hardware.font a = some b) : resetByte a = b := by
  rw [resetByte, h, Option.getD_some]

theorem resetByte_of_ge {a : Nat} (ha : 80 ≤ a) : resetByte a = 0 := by
  rw [resetByte, hardware.font_eq_none ha, Option.getD_none]

theorem State.read_resetMachine (s : State) {a : Nat} (ha : a < memSize) : s.resetMachine.mem.read a = resetByte a := by
  rw [State.resetMachine_mem, Memory.read, Nat.mod_eq_of_lt ha, Memory.byteAt]

theorem State.read_resetMachine_font (s : State) {a : Nat} (ha : a < 80) :
    hardware.font a = some (s.resetMachine.mem.read a) := by
  obtain ⟨b, hb⟩ := hardware.font_eq_some ha
  rw [s.read_resetMachine (ha.trans (by decide)), resetByte_of_font hb, hb]

theorem State.read_resetMachine_of_ge (s : State) {a : Nat} (ha : a < memSize) (hge : 80 ≤ a) :
    s.resetMachine.mem.read a = 0 := by
  rw [s.read_resetMachine ha, resetByte_of_ge hge]

/-! ## Registers and stack after Reset (R300) -/

theorem State.readV_resetMachine (s : State) (r : Reg) : s.resetMachine.readV r = 0 := Vector.getElem_replicate ..

theorem State.stack_resetMachine (s : State) {j : Nat} (hj : j < 16) : s.resetMachine.stack[j]? = some 0 :=
  Vector.getElem?_replicate_of_lt hj

/-! ## The first Step with no ROM (R301, R303) -/

/-- `pc` is past the font, where both bytes of the word are 0. -/
theorem State.fetchWord_resetMachine (s : State) : s.resetMachine.fetchWord = 0 := by
  have hhi : s.resetMachine.mem.read 0x200 = 0 := s.read_resetMachine_of_ge (by decide) (by decide)
  have hlo : s.resetMachine.mem.read 0x201 = 0 := s.read_resetMachine_of_ge (by decide) (by decide)
  calc s.resetMachine.fetchWord
    _ = wordOfBytes (s.resetMachine.mem.read 0x200) (s.resetMachine.mem.read 0x201) := s.resetMachine.fetchWord_eq
    _ = 0 := by rw [hhi, hlo]; rfl

/-- `0x0000` is in group 0 and is neither CLS nor RET (R97). -/
theorem decode_zero : decode 0 = .invalid (.group0 0) := by decide

theorem step_resetMachine (s : State) : step s.resetMachine = .next (s.resetMachine.raiseDecodeError 0) := by
  have hd : decode s.resetMachine.fetchWord = .invalid (.group0 0) := by rw [s.fetchWord_resetMachine, decode_zero]
  rw [step_of_invalid s.resetMachine_halted hd, s.fetchWord_resetMachine]

/-! ## The obligations of the family -/

/-- Settles O52: registers, stack, memory and display by their lemmas, the remaining fields by definition. -/
theorem resetSetsEveryPieceOfState : Obligations.ResetSetsEveryPieceOfState := by
  intro rate s
  refine ⟨s.resetMachine, rfl, s.readV_resetMachine, rfl, rfl, rfl, ?stack, rfl, rfl, ?font, ?zeros, ?display,
    rfl, rfl, rfl, rfl, rfl, rfl⟩
  case stack => exact fun j hj => s.stack_resetMachine hj
  case font => exact fun a ha => s.read_resetMachine_font ha
  case zeros => exact fun a ha hge => s.read_resetMachine_of_ge ha hge
  case display => exact fun x _ y _ => Display.cell_blank x y

/-- Settles O25: the reset state is what Reset makes of itself, draws counter included. -/
theorem resetMeetsTheInvariant : Obligations.ResetMeetsTheInvariant := inv_resetMachine State.reset

/-- Settles O53: the Step after the Reset is the decode error's entry on the word 0. -/
theorem firstStepAfterResetHaltsWithNoRom : Obligations.FirstStepAfterResetHaltsWithNoRom := by
  intro rate s
  refine ⟨s.resetMachine.raiseDecodeError 0, ?_, rfl, rfl, rfl, rfl⟩
  calc serveAll [.reset rate, .step] s
    _ = serveAll [.step] s.resetMachine := serveAll_cons_of_next rfl
    _ = .next (s.resetMachine.raiseDecodeError 0) := serveAll_cons_of_next (step_resetMachine s)

end Sys2Proof.Machine
